-- ==== Sys2Proof/Word.lean ====
section
/-!
DEFINITION. The word types of the block (spec/00_scope.md R5, R8): every quantity is unsigned.
-/

namespace Sys2Proof

/-- WORD = 32: a host access and a register (R5). -/
abbrev Word := BitVec 32

/-- SYM_W = 8: a symbol, and one byte of SB or BB (R5, R25, R26). -/
abbrev Byte := BitVec 8

/-- IDX_W = 9: the index of a node in the tree memory (R5, R24). -/
abbrev NodeIdx := BitVec 9

end Sys2Proof
end

