-- ==== Sys2Proof/Config.lean ====
section
/-!
DEFINITION. The implementation parameters (spec/00_scope.md R5). The three OPEN ones are plain data which the state
carries and no step changes (log 1), so a statement about every state is one about every admissible block.
There is no free value: the spec leaves no value undefined.
-/

namespace Sys2Proof

/-- The OPEN parameters of R5. Each admissible choice is one value of this type and each value is admissible: a
capacity is four times a count of 1 to 16384 words (multiple of 4, 4 to 65536), `base` a multiple of 0x40000. -/
structure Params where
  /-- SYM_CAP / 4 - 1. -/
  symWords : Fin 16384
  /-- BB_BYTES / 4 - 1. -/
  bbWords : Fin 16384
  /-- BASE / 0x40000. -/
  baseUnit : Nat
  deriving DecidableEq, Repr

/-- SYM_CAP: the capacity of SB in symbols (R5). -/
def Params.symCap (p : Params) : Nat := 4 * (p.symWords.val + 1)

/-- BB_BYTES: the capacity of BB in bytes (R5). -/
def Params.bbBytes (p : Params) : Nat := 4 * (p.bbWords.val + 1)

/-- BASE: the host address of offset 0 of the window (R5). -/
def Params.base (p : Params) : Nat := 0x40000 * p.baseUnit

/-- DESIGN CHOICE (log 1, unsafe): the parameters of the reset state, the convention of spec/95_test_vectors.md
(SYM_CAP = 64, BB_BYTES = 64) and BASE = 0. The spec leaves them open. -/
def Params.standard : Params := ⟨15, 15, 0⟩

/-- WINDOW = 0x30000 bytes (R30). -/
def windowBytes : Nat := 0x30000

/-- ROOT = 0: the node index of the tree root (R5, R24). -/
def root : NodeIdx := 0

end Sys2Proof
end

