-- ==== Sys2Proof/Syntax.lean ====
section
/-!
DEFINITION. The commands of the block: one constructor per row of spec/opcode_table.json (spec/30_encoding.md R52).
A command word has no operand field (R50, R62): no constructor has an argument.
-/

namespace Sys2Proof

/-- The seven commands (R52). -/
inductive Instr where
  /-- NOP, 0x00000000 (R115). -/
  | nop
  /-- ENCODE, 0x01000000 (R90). -/
  | encode
  /-- DECODE, 0x02000000 (R100). -/
  | decode
  /-- CLRERR, 0x03000000 (R116). -/
  | clrerr
  /-- CLRCT, 0x04000000 (R117). -/
  | clrct
  /-- CLRTM, 0x05000000 (R118). -/
  | clrtm
  /-- SRST, 0x06000000 (R119). -/
  | srst
  deriving DecidableEq, Repr

end Sys2Proof
end

