-- ==== Sys2Proof/WellFormed.lean ====
section
/-!
DEFINITION. Well-formedness. A command has no operand, so every term of Instr is well formed; what can be ill formed
is the 32-bit word the host writes (spec/30_encoding.md R50, R53): its OPC must be one of 0x00 to 0x06 and its ARG 0.
-/

namespace Sys2Proof

/-- Bits 31:24 of a command word (R50). -/
def commandOpc (w : Word) : Nat := w.toNat / 2 ^ 24

/-- Bits 23:0 of a command word (R50). -/
def commandArg (w : Word) : Nat := w.toNat % 2 ^ 24

/-- The word's OPC is one of the opcode map (R52). -/
def opcKnown (w : Word) : Bool := decide (commandOpc w ≤ 6)

/-- The word's ARG is zero (R50). -/
def argZero (w : Word) : Bool := commandArg w == 0

/-- A legal command word: the complement of the illegal words of R53. -/
def wellFormedWord (w : Word) : Bool := opcKnown w && argZero w

/-- Every command is well formed: format C has no operand field (R50, R62). -/
def Instr.wf : Instr → Bool
  | .nop => true
  | .encode => true
  | .decode => true
  | .clrerr => true
  | .clrct => true
  | .clrtm => true
  | .srst => true

end Sys2Proof
end

