-- ==== Sys2Proof/Decode.lean ====
section
/-!
DEFINITION. The command decoder and encoder (spec/30_encoding.md R50 to R53): total on every 32-bit word, an illegal
word rejected by name. Command words are presented whole on the 32-bit host write, so there is no fetch and no byte
order in this file (R62, R63).
-/

namespace Sys2Proof

/-- Why a word is no command (the two classes of R53). Both raise BadCommand at dispatch (R51). -/
inductive DecodeReject where
  /-- OPC is in 0x07 to 0xFF. -/
  | illegalOpcode (w : Word)
  /-- OPC is in 0x00 to 0x06 and ARG is not 0. -/
  | nonzeroArg (w : Word)
  deriving DecidableEq, Repr

/-- One row of the opcode map: the word is selected where `w &&& mask = value`. -/
structure OpcodeRow where
  mask : Word
  value : Word
  instr : Instr
  deriving DecidableEq, Repr

/-- The opcode map (R52, spec/opcode_table.json): the full word selects the command. -/
def opcodeTable : List OpcodeRow :=
  [⟨0xFFFFFFFF, 0x00000000, .nop⟩,
   ⟨0xFFFFFFFF, 0x01000000, .encode⟩,
   ⟨0xFFFFFFFF, 0x02000000, .decode⟩,
   ⟨0xFFFFFFFF, 0x03000000, .clrerr⟩,
   ⟨0xFFFFFFFF, 0x04000000, .clrct⟩,
   ⟨0xFFFFFFFF, 0x05000000, .clrtm⟩,
   ⟨0xFFFFFFFF, 0x06000000, .srst⟩]

/-- The first row that selects the word. -/
def lookupRow (w : Word) : List OpcodeRow → Option Instr
  | [] => none
  | r :: rows => if w &&& r.mask = r.value then some r.instr else lookupRow w rows

/-- Decode a command word (R52, R53): one of the seven commands, or illegal and named. -/
def decode (w : Word) : Except DecodeReject Instr :=
  match lookupRow w opcodeTable with
  | some i => .ok i
  | none => if opcKnown w then .error (.nonzeroArg w) else .error (.illegalOpcode w)

/-- The OPC of a command (R52). -/
def opcode : Instr → Byte
  | .nop => 0x00
  | .encode => 0x01
  | .decode => 0x02
  | .clrerr => 0x03
  | .clrct => 0x04
  | .clrtm => 0x05
  | .srst => 0x06

/-- The command word of a command (R50): OPC in bits 31:24, ARG = 0 in bits 23:0. -/
def encode (i : Instr) : Word := opcode i ++ (0 : BitVec 24)

/-- What the decoder reads from a table row's word: bits `nbits` and up are 0. -/
def decodeTableWord (nbits w : Nat) : Option Instr :=
  match decode (BitVec.ofNat 32 (w % 2 ^ nbits)) with
  | .ok i => some i
  | .error _ => none

end Sys2Proof
end

