-- ==== Sys2Proof/Machine/State.lean ====
section
/-!
DEFINITION. The state of the block (spec/10_state.md R10 to R29), the host operations that drive it
(spec/00_scope.md R6), and the reasons a step can stop.
-/

namespace Sys2Proof.Machine

/-- CTRL.FMT, the bitstream format (R15): 0 = packed (R58), 1 = character (R59). -/
inductive Format where
  | packed
  | character
  deriving DecidableEq, Repr

/-- The error kinds of STATUS.ERR (R125). Codes 8 to 15 are never produced and have no constructor. -/
inductive ErrKind where
  /-- Code 1. Never written by the block: the host functions' error (R133). -/
  | invalidInput
  /-- Code 2: a symbol of the data has no code. -/
  | lookupError
  /-- Code 3: a bit character that is neither '0' nor '1'. -/
  | invalidBit
  /-- Code 4: the stream ends inside a code, or a bit leads to the SYNTH leaf. -/
  | malformedStream
  /-- Code 5: a node to be walked is not there. -/
  | badTree
  /-- Code 6: a length or a result exceeds its buffer. -/
  | overflow
  /-- Code 7: the word written to CMD is no command. -/
  | badCommand
  deriving DecidableEq, Repr

/-- An error a command detected: its kind and the position ERRPOS takes (`raise E(p)` of R9). -/
structure Raised where
  kind : ErrKind
  pos : Word
  deriving DecidableEq, Repr

/-- What a tree-memory word holds (R55). -/
inductive NodeTag where
  | empty
  | internal
  | leaf
  | synth
  deriving DecidableEq, Repr

/-- One element of the bitstream as the decoder sees it (R57). -/
inductive BitChar where
  | zero
  | one
  | invalid
  deriving DecidableEq, Repr

/-- The decoder's transient cursor and output (R102); a position travels beside it. -/
structure Walk where
  cur : NodeIdx
  out : List Byte
  deriving DecidableEq, Repr

/-- A mapped location of the host window (R31). -/
inductive Loc where
  | cmd
  | ctrl
  | status
  | errpos
  | slen
  | blen
  | symcap
  | bbcap
  /-- TM[i]. -/
  | tm (i : NodeIdx)
  /-- CT[sym].W[k], k in 0..8. -/
  | ct (sym : Byte) (k : Nat)
  /-- The word of SB[4j .. 4j+3]. -/
  | sb (j : Nat)
  /-- The word of BB[4j .. 4j+3]. -/
  | bb (j : Nat)
  deriving DecidableEq, Repr

/-- One step of the host (R6, R64). An access is described by its offset and its size in bytes (R32). -/
inductive HostOp where
  /-- HostRead(offset) (R33). -/
  | read (offset size : Nat)
  /-- HostWrite(offset, value) (R34). -/
  | write (offset size : Nat) (value : Word)
  /-- The hard reset (R145). -/
  | hardReset
  deriving DecidableEq, Repr

/-- The block's answer to a host operation (R9, R32). -/
inductive Reply where
  /-- An accepted write, or a reset. -/
  | ok
  /-- The word an accepted read returns. -/
  | data (w : Word)
  /-- The access was not accepted; nothing happened (R32). -/
  | busError
  deriving DecidableEq, Repr

/-- A memory as sparse cells: addresses strictly rising, no zero listed; what is not listed reads 0, the reset
contents of every memory (R29; log 5). The cells of an 8-bit memory are `Host.Cell`s. -/
abbrev Memory (w : Nat) := List (Nat × BitVec w)

/-- The state of the block (R10), with three fields of the model's own at the end. -/
structure State where
  /-- CTRL.FMT (R15). -/
  ctrlFmt : Format
  /-- STATUS.ERR (R13, R16): none is code 0. -/
  statusErr : Option ErrKind
  /-- ERRPOS (R17). -/
  errpos : Word
  /-- SLEN (R18). -/
  slen : Word
  /-- BLEN (R19). -/
  blen : Word
  /-- CT (R23): word k of symbol s under address 16*s + k. -/
  ct : Memory 32
  /-- TM (R24): node i under address i. -/
  tm : Memory 32
  /-- SB (R25): byte k under address k. -/
  sb : List Host.Cell
  /-- BB (R26): byte k under address k. -/
  bb : List Host.Cell
  /-- The OPEN parameters, constants of the block (R5; log 1). -/
  params : Params
  /-- The host's operations not yet performed, next first (R12; log 2). -/
  pending : List HostOp
  /-- The values the reads returned so far, oldest first (R152; log 3). -/
  reads : List Word
  deriving DecidableEq, Repr

/-- Why the machine stops. -/
inductive Fault where
  /-- Raised by step for a host access that the window answers `BusError` (R32): a wrong size, a misaligned,
  unmapped or outside offset. R136: "A model of host programs should treat a program that draws a `BusError` as
  faulted." Safe (log 4): the block itself goes on unchanged, which `serve` says. -/
  | busError (op : HostOp)
  deriving DecidableEq, Repr

/-- Why the machine gives an instruction no meaning. -/
inductive Refusal where
  /-- Raised by exec for an instruction not modelled yet. Safe. No arm of this model raises it. -/
  | notModelled (mnemonic : String)
  deriving DecidableEq, Repr

/-- The three outcomes of a step of this machine. -/
abbrev Outcome := Host.Outcome State Fault Refusal

/-- The reset values of R29 in a block with the parameters `p`, with no host operation placed. -/
def State.resetFor (p : Params) : State where
  ctrlFmt := .packed
  statusErr := none
  errpos := 0
  slen := 0
  blen := 0
  ct := []
  tm := []
  sb := []
  bb := []
  params := p
  pending := []
  reads := []

/-- The machine right after reset (R29, R146), with the parameters of log 1 and no program placed (log 2). -/
def State.reset : State := State.resetFor Params.standard

end Sys2Proof.Machine
end

