-- ==== Sys2Proof/Machine/Flags.lean ====
section
/-!
DEFINITION. The one flag group of the block, STATUS.ERR (spec/10_state.md R13, spec/60_exceptions.md R125). There is
no carry, zero, sign or overflow flag (R13, R120).
-/

namespace Sys2Proof.Machine

/-- The value an error kind writes to STATUS.ERR (R125). -/
def ErrKind.code : ErrKind → BitVec 4
  | .invalidInput => 1
  | .lookupError => 2
  | .invalidBit => 3
  | .malformedStream => 4
  | .badTree => 5
  | .overflow => 6
  | .badCommand => 7

/-- The field STATUS.ERR (R13): 0 when no error is latched. -/
def State.errField (s : State) : BitVec 4 :=
  match s.statusErr with
  | none => 0
  | some k => k.code

/-- The register STATUS as the host reads it (R16): ERR in bits 3:0, bits 31:4 read 0. -/
def State.statusWord (s : State) : Word := s.errField.setWidth 32

/-- STATUS.ERR ≠ 0: an error is latched (R130). -/
def State.latched (s : State) : Bool := s.statusErr.isSome

/-- Bit 0 of CTRL (R15). -/
def Format.toBit : Format → Bool
  | .packed => false
  | .character => true

/-- The format a written FMT bit selects (R15). -/
def Format.ofBit : Bool → Format
  | false => .packed
  | true => .character

/-- The register CTRL as the host reads it (R15): bits 31:1 read 0. -/
def State.ctrlWord (s : State) : Word := (BitVec.ofBool s.ctrlFmt.toBit).setWidth 32

end Sys2Proof.Machine
end

