-- ==== Sys2Proof/Machine/Ops.lean ====
section
/-!
DEFINITION. The named operations over the memories and registers: sparse memory, the four memories by index
(spec/20_memory.md R37), raising an error (spec/60_exceptions.md R126), the return from it (R131), the dropped-command
gate (R130) and the reset (spec/70_reset_and_hazards.md R145).
-/

namespace Sys2Proof.Machine

/-! ### Sparse memory -/

/-- What the cell at address `a` holds; an unlisted cell holds 0 (R29; log 5). -/
def Memory.read {w : Nat} (m : Memory w) (a : Nat) : BitVec w :=
  match m with
  | [] => 0
  | c :: rest => if c.1 = a then c.2 else Memory.read rest a

/-- Take address `a` off the list. -/
def Memory.unlist {w : Nat} (a : Nat) (m : Memory w) : Memory w := m.filter fun c => c.1 != a

/-- List address `a` before the first address above it. -/
def Memory.enlist {w : Nat} (a : Nat) (v : BitVec w) : Memory w → Memory w
  | [] => [(a, v)]
  | c :: rest => if a < c.1 then (a, v) :: c :: rest else c :: Memory.enlist a v rest

/-- Write one cell and keep the canonical form: writing 0 takes the address off the list. -/
def Memory.write {w : Nat} (m : Memory w) (a : Nat) (v : BitVec w) : Memory w :=
  if v = 0 then Memory.unlist a m else Memory.enlist a v (Memory.unlist a m)

/-- Write consecutive cells from address `a` on. -/
def Memory.writeAll {w : Nat} (m : Memory w) (a : Nat) : List (BitVec w) → Memory w
  | [] => m
  | v :: vs => Memory.writeAll (Memory.write m a v) (a + 1) vs

/-- The canonical form: addresses strictly rising and no cell that holds what an unlisted one reads as. -/
abbrev Memory.wf {w : Nat} (m : Memory w) : Prop :=
  m.Pairwise (fun c d => c.1 < d.1) ∧ ∀ c ∈ m, c.2 ≠ 0

/-! ### The four memories by index (R37) -/

/-- SB[k] (R25). -/
def State.sbByte (s : State) (k : Nat) : Byte := Memory.read s.sb k

/-- BB[k] (R26). -/
def State.bbByte (s : State) (k : Nat) : Byte := Memory.read s.bb k

/-- TM[i] (R24). -/
def State.tmWord (s : State) (i : NodeIdx) : Word := Memory.read s.tm i.toNat

/-- The address in `ct` of CT[sym].W[k]: the word's position in the table, 16 words a symbol (R31). -/
def ctAddr (sym : Byte) (k : Nat) : Nat := 16 * sym.toNat + k

/-- CT[sym].W[k], k in 0..8 (R23). -/
def State.ctWord (s : State) (sym : Byte) (k : Nat) : Word := Memory.read s.ct (ctAddr sym k)

/-- The bits of a TM word that are stored (R34, R55): TAG, LEFT and RIGHT. -/
def tmMask : Word := 0xC1FF01FF

/-- The bits of a CT word that are stored (R34, R54): bits 7:0 of word 0, all of words 1 to 8. -/
def ctMask (k : Nat) : Word := if k = 0 then 0x000000FF else 0xFFFFFFFF

/-- TM[i] <- v, reserved bits ignored (R22, R34). -/
def State.setTmWord (s : State) (i : NodeIdx) (v : Word) : State :=
  { s with tm := Memory.write s.tm i.toNat (v &&& tmMask) }

/-- CT[sym].W[k] <- v, reserved bits ignored (R22, R34). -/
def State.setCtWord (s : State) (sym : Byte) (k : Nat) (v : Word) : State :=
  { s with ct := Memory.write s.ct (ctAddr sym k) (v &&& ctMask k) }

/-- SB[k], SB[k+1], ... <- the bytes. -/
def State.putSb (s : State) (k : Nat) (bytes : List Byte) : State :=
  { s with sb := Memory.writeAll s.sb k bytes }

/-- BB[k], BB[k+1], ... <- the bytes. -/
def State.putBb (s : State) (k : Nat) (bytes : List Byte) : State :=
  { s with bb := Memory.writeAll s.bb k bytes }

/-! ### Errors (R126 to R132) -/

/-- `raise E(p)` (R9, R126): STATUS.ERR and ERRPOS are written, and nothing else (R128). No pc, mode or vector is
involved (R130). -/
def State.raise (s : State) (kind : ErrKind) (pos : Word) : State :=
  { s with statusErr := some kind, errpos := pos }

/-- The return from an error (R116, R131): STATUS.ERR and ERRPOS become 0, nothing else changes. -/
def State.clearErr (s : State) : State := { s with statusErr := none, errpos := 0 }

/-- A command word other than CLRERR and SRST is dropped while an error is latched (R51 case 1, R130): no state
changes. The test stands in each such command's meaning and in the illegal word's dispatch (log 7). -/
def State.unlessLatched (s : State) (o : Outcome) : Outcome := if s.latched then .next s else o

/-! ### Reset (R29, R145) -/

/-- What a hard reset and SRST both do (R145): every piece of state takes its reset value. The parameters are constants
(R20, R21), and the host's operations and the values it read are the host's, not the block's (R12). -/
def State.resetBlock (s : State) : State :=
  { State.resetFor s.params with pending := s.pending, reads := s.reads }

end Sys2Proof.Machine
end

