-- ==== Sys2Proof/Machine/Operands.lean ====
section
/-!
DEFINITION. Every operand form: the code-table entry and its code bits (spec/30_encoding.md R54), the fields of a tree
word (R55), bit characters in both formats (R57 to R59), the capacity (R60), the packer's bytes (spec/41_encoder.md
R93), the byte order of a host word (spec/20_memory.md R35) and the address map (R31, R32, spec/30_encoding.md R66).
-/

namespace Sys2Proof.Machine

/-! ### Code-table entries (R54) -/

/-- CT[sym].LEN: bits 7:0 of word 0; 0 = absent (R23, R54). -/
def State.ctLen (s : State) (sym : Byte) : Nat := ((s.ctWord sym 0).setWidth 8).toNat

/-- Bit i of the code of a symbol: bit 31 - (i mod 32) of word 1 + (i div 32) (R54). -/
def State.codeBit (s : State) (sym : Byte) (i : Nat) : Bool :=
  (s.ctWord sym (1 + i / 32)).getLsbD (31 - i % 32)

/-- CodeBits(sym) (R54): the first LEN code bits. R54 leaves it undefined for LEN = 0, where ENCODE never asks for it
(log 6). -/
def State.codeBits (s : State) (sym : Byte) : List Bool := (List.range (s.ctLen sym)).map (s.codeBit sym)

/-! ### Tree words (R55) -/

/-- TAG, bits 31:30 (R55). -/
def nodeTag (w : Word) : NodeTag :=
  match w.getLsbD 31, w.getLsbD 30 with
  | false, false => .empty
  | false, true => .internal
  | true, false => .leaf
  | true, true => .synth

/-- LEFT, bits 24:16 (R55). -/
def nodeLeft (w : Word) : NodeIdx := w.extractLsb' 16 9

/-- RIGHT, bits 8:0 (R55). -/
def nodeRight (w : Word) : NodeIdx := w.extractLsb' 0 9

/-- SYM, bits 7:0 (R55). -/
def nodeSym (w : Word) : Byte := w.extractLsb' 0 8

/-- INTERNAL(l, r) = 0x40000000 + (l << 16) + r (R55). -/
def internalWord (l r : NodeIdx) : Word := 0x40000000 + (l.setWidth 32 <<< 16) + r.setWidth 32

/-- LEAF(s) = 0x80000000 + s (R55). -/
def leafWord (sym : Byte) : Word := 0x80000000 + sym.setWidth 32

/-- SYNTH = 0xC0000000 (R55). -/
def synthWord : Word := 0xC0000000

/-! ### Bitstreams (R57 to R60) -/

/-- BitCap(f), the capacity of BB in bits (R60). -/
def bitCap (p : Params) : Format → Nat
  | .packed => 8 * p.bbBytes
  | .character => p.bbBytes

/-- The bit character of a bit of the packed format (R58): never invalid. -/
def BitChar.ofBool (b : Bool) : BitChar := if b then .one else .zero

/-- The bit character of a byte of the character format (R59). -/
def BitChar.ofByte (b : Byte) : BitChar :=
  if b = 0x30 then .zero else if b = 0x31 then .one else .invalid

/-- BitChar(p) under a format (R58, R59, R101). -/
def State.bitChar (s : State) : Format → Nat → BitChar
  | .packed, p => BitChar.ofBool ((s.bbByte (p / 8)).getLsbD (7 - p % 8))
  | .character, p => BitChar.ofByte (s.bbByte p)

/-- Bit p of a sequence, 0 beyond its end: the b(p) of R93 with its pad. -/
def padBit (bits : List Bool) (p : Nat) : Bool := bits.getD p false

/-- PackByte(bits, k) (R93): the sum over j in 0..7 of b(8k + j) * 2^(7 - j). -/
def packByte (bits : List Bool) (k : Nat) : Byte :=
  BitVec.ofNat 8 (((List.range 8).map fun j => (padBit bits (8 * k + j)).toNat * 2 ^ (7 - j)).sum)

/-- The character of a bit: 0x30 + b (R59, R93). -/
def charByte (b : Bool) : Byte := if b then 0x31 else 0x30

/-- The bytes of BB that hold a bit sequence, from BB[0] on (R93): ceil(n/8) packed bytes, or n characters. -/
def packedBytes (bits : List Bool) : Format → List Byte
  | .packed => (List.range ((bits.length + 7) / 8)).map (packByte bits)
  | .character => bits.map charByte

/-! ### Byte order of a host word (R35) -/

/-- The word whose bits 7:0, 15:8, 23:16 and 31:24 are the four bytes (R35). -/
def wordOfBytes (b0 b1 b2 b3 : Byte) : Word := b3 ++ b2 ++ b1 ++ b0

/-- The four bytes of a word, bits 7:0 first (R35). -/
def bytesOfWord (v : Word) : List Byte :=
  [v.extractLsb' 0 8, v.extractLsb' 8 8, v.extractLsb' 16 8, v.extractLsb' 24 8]

/-- The host word at word index j of a byte buffer (R35). -/
def bufferWord (m : Memory 8) (j : Nat) : Word :=
  wordOfBytes (Memory.read m (4 * j)) (Memory.read m (4 * j + 1)) (Memory.read m (4 * j + 2))
    (Memory.read m (4 * j + 3))

/-! ### The address map (R31, R32, R66) -/

/-- The location at an offset that is a multiple of 4 (R31); none where the map has a gap. -/
def locate (p : Params) (off : Nat) : Option Loc :=
  if off < 0x800 then
    match off with
    | 0x00 => some .cmd
    | 0x04 => some .ctrl
    | 0x08 => some .status
    | 0x0C => some .errpos
    | 0x10 => some .slen
    | 0x14 => some .blen
    | 0x18 => some .symcap
    | 0x1C => some .bbcap
    | _ => none
  else if off < 0x1000 then some (.tm (BitVec.ofNat 9 ((off - 0x800) / 4)))
  else if off < 0x4000 then none
  else if off < 0x8000 then
    let k := off % 64 / 4
    if k ≤ 8 then some (.ct (BitVec.ofNat 8 ((off - 0x4000) / 64)) k) else none
  else if off < 0x10000 then none
  else if off < 0x20000 then
    if off < 0x10000 + p.symCap then some (.sb ((off - 0x10000) / 4)) else none
  else if off < 0x20000 + p.bbBytes then some (.bb ((off - 0x20000) / 4))
  else none

/-- The location an access reaches, or none where it is answered `BusError` (R32): size 4, aligned, inside the
window, mapped. -/
def accepted (p : Params) (off size : Nat) : Option Loc :=
  if size = 4 ∧ off % 4 = 0 ∧ off < windowBytes then locate p off else none

/-- The locations a block has: those of the map (R31) below its capacities. -/
def Loc.mapped (p : Params) : Loc → Bool
  | .ct _ k => k ≤ 8
  | .sb j => decide (4 * j < p.symCap)
  | .bb j => decide (4 * j < p.bbBytes)
  | _ => true

/-- The offset of a location (R31, R66). -/
def Loc.offset : Loc → Nat
  | .cmd => 0x00
  | .ctrl => 0x04
  | .status => 0x08
  | .errpos => 0x0C
  | .slen => 0x10
  | .blen => 0x14
  | .symcap => 0x18
  | .bbcap => 0x1C
  | .tm i => 0x800 + 4 * i.toNat
  | .ct sym k => 0x4000 + 64 * sym.toNat + 4 * k
  | .sb j => 0x10000 + 4 * j
  | .bb j => 0x20000 + 4 * j

/-- The offset inside the window of a host address (R30, R41): none outside BASE to BASE + 0x2FFFF. -/
def offsetOfAddress (p : Params) (addr : Nat) : Option Nat :=
  if p.base ≤ addr ∧ addr < p.base + windowBytes then some (addr - p.base) else none

end Sys2Proof.Machine
end

