-- ==== Sys2Proof/Machine/Decoder.lean ====
section
/-!
DEFINITION. DECODE: bitstream unpacker and tree walker (spec/42_decoder.md R100 to R111).
-/

namespace Sys2Proof.Machine

/-- What the walker does at the child it moves to (R103): on to an INTERNAL node, out at a LEAF unless SB is full,
an error at SYNTH and EMPTY. -/
def enterChild (s : State) (pos : Nat) (w : Walk) (nxt : NodeIdx) : Except Raised Walk :=
  match nodeTag (s.tmWord nxt) with
  | .internal => .ok ⟨nxt, w.out⟩
  | .leaf =>
    if w.out.length = s.params.symCap then .error ⟨.overflow, BitVec.ofNat 32 pos⟩
    else .ok ⟨root, w.out ++ [nodeSym (s.tmWord nxt)]⟩
  | .synth => .error ⟨.malformedStream, BitVec.ofNat 32 pos⟩
  | .empty => .error ⟨.badTree, BitVec.ofNat 32 pos⟩

/-- The node under the cursor must be INTERNAL; then Zero goes LEFT and One goes RIGHT (R103, R121). -/
def takeBit (s : State) (pos : Nat) (w : Walk) (b : Bool) : Except Raised Walk :=
  match nodeTag (s.tmWord w.cur) with
  | .internal =>
    enterChild s pos w (if b then nodeRight (s.tmWord w.cur) else nodeLeft (s.tmWord w.cur))
  | _ => .error ⟨.badTree, BitVec.ofNat 32 pos⟩

/-- One walker step at position `pos` (R103): InvalidBit is tested first (R106). -/
def walkStep (s : State) (pos : Nat) (w : Walk) : Except Raised Walk :=
  match s.bitChar s.ctrlFmt pos with
  | .invalid => .error ⟨.invalidBit, BitVec.ofNat 32 pos⟩
  | .zero => takeBit s pos w false
  | .one => takeBit s pos w true

/-- The loop of R100: `left` bit characters from position `pos` on. -/
def walkFrom (s : State) : (left pos : Nat) → Walk → Except Raised Walk
  | 0, _, w => .ok w
  | left + 1, pos, w =>
    match walkStep s pos w with
    | .error r => .error r
    | .ok w' => walkFrom s left (pos + 1) w'

/-- The symbols DECODE emits, or the first error in the order of R106; at exhaustion the cursor must be at the root
(R104). -/
def decodedSymbols (s : State) : Except Raised (List Byte) :=
  if s.blen.toNat > bitCap s.params s.ctrlFmt then
    .error ⟨.overflow, BitVec.ofNat 32 (bitCap s.params s.ctrlFmt)⟩
  else
    match walkFrom s s.blen.toNat 0 ⟨root, []⟩ with
    | .error r => .error r
    | .ok w => if w.cur = root then .ok w.out else .error ⟨.malformedStream, s.blen⟩

/-- The commit (R105): the symbols from SB[0] on, and SLEN. -/
def commitDecode (s : State) (out : List Byte) : State :=
  { s.putSb 0 out with slen := BitVec.ofNat 32 out.length }

/-- DECODE (R100): dropped while an error is latched (R51); an error is raised with nothing written (R105, R128). -/
def execDecode (s : State) : Outcome :=
  s.unlessLatched <|
    match decodedSymbols s with
    | .error r => .next (s.raise r.kind r.pos)
    | .ok out => .next (commitDecode s out)

end Sys2Proof.Machine
end

