-- ==== Sys2Proof/Machine/Encoder.lean ====
section
/-!
DEFINITION. ENCODE: symbol-to-code lookup and bitstream packer (spec/41_encoder.md R90 to R97).
-/

namespace Sys2Proof.Machine

/-- The loop of R90: `left` symbols from index `i` on, `bits` so far. At each symbol LookupError is tested before
Overflow (R95). -/
def encodeFrom (s : State) (cap : Nat) : (left i : Nat) → (bits : List Bool) → Except Raised (List Bool)
  | 0, _, bits => .ok bits
  | left + 1, i, bits =>
    if s.ctLen (s.sbByte i) = 0 then .error ⟨.lookupError, BitVec.ofNat 32 i⟩
    else if bits.length + s.ctLen (s.sbByte i) > cap then .error ⟨.overflow, BitVec.ofNat 32 i⟩
    else encodeFrom s cap left (i + 1) (bits ++ s.codeBits (s.sbByte i))

/-- EncBits (R92), or the first error in the order of R95. -/
def encBits (s : State) : Except Raised (List Bool) :=
  if s.slen.toNat > s.params.symCap then .error ⟨.overflow, BitVec.ofNat 32 s.params.symCap⟩
  else encodeFrom s (bitCap s.params s.ctrlFmt) s.slen.toNat 0 []

/-- The commit (R94): the packed bytes from BB[0] on, and BLEN. -/
def commitEncode (s : State) (bits : List Bool) : State :=
  { s.putBb 0 (packedBytes bits s.ctrlFmt) with blen := BitVec.ofNat 32 bits.length }

/-- ENCODE (R90): dropped while an error is latched (R51); an error is raised with nothing written (R94, R128). -/
def execEncode (s : State) : Outcome :=
  s.unlessLatched <|
    match encBits s with
    | .error r => .next (s.raise r.kind r.pos)
    | .ok bits => .next (commitEncode s bits)

end Sys2Proof.Machine
end

