-- ==== Sys2Proof/Machine/Housekeeping.lean ====
section
/-!
DEFINITION. The housekeeping commands (spec/43_housekeeping.md R115 to R119).
-/

namespace Sys2Proof.Machine

/-- NOP (R115): nothing, and where an error is latched it is dropped, which is the same nothing. -/
def execNop (s : State) : Outcome := s.unlessLatched (.next s)

/-- CLRERR (R116): STATUS.ERR <- 0, ERRPOS <- 0, whatever STATUS.ERR is. -/
def execClrerr (s : State) : Outcome := .next s.clearErr

/-- CLRCT (R117): every CT word <- 0; dropped while an error is latched. -/
def execClrct (s : State) : Outcome := s.unlessLatched (.next { s with ct := [] })

/-- CLRTM (R118): every TM word <- 0; dropped while an error is latched. -/
def execClrtm (s : State) : Outcome := s.unlessLatched (.next { s with tm := [] })

/-- SRST (R119): every piece of state takes its reset value, whatever STATUS.ERR is. -/
def execSrst (s : State) : Outcome := .next s.resetBlock

end Sys2Proof.Machine
end

