-- ==== Sys2Proof/Machine/Dispatch.lean ====
section
/-!
DEFINITION. The meaning of each command (spec/30_encoding.md R51 case 3, R52): one arm per constructor.
-/

namespace Sys2Proof.Machine

/-- Perform a command's rule (R51 case 3). -/
def exec (i : Instr) (s : State) : Host.Outcome State Fault Refusal :=
  match i with
  | .nop => Sys2Proof.Machine.execNop s
  | .encode => Sys2Proof.Machine.execEncode s
  | .decode => Sys2Proof.Machine.execDecode s
  | .clrerr => Sys2Proof.Machine.execClrerr s
  | .clrct => Sys2Proof.Machine.execClrct s
  | .clrtm => Sys2Proof.Machine.execClrtm s
  | .srst => Sys2Proof.Machine.execSrst s

end Sys2Proof.Machine
end

