-- ==== Sys2Proof/Machine/HostAccess.lean ====
section
/-!
DEFINITION. What the block does on a host operation: the dispatcher (spec/30_encoding.md R51), host reads and writes
(spec/20_memory.md R32 to R36), the hard reset (spec/70_reset_and_hazards.md R145), and the host's stream of operations
(spec/00_scope.md R6, R7).
-/

namespace Sys2Proof.Machine

/-- The dispatcher (R51): what a word written to CMD does. While an error is latched every word but CLRERR and SRST is
dropped; the gate stands in the meanings and, for an illegal word, here (log 7). -/
def present (w : Word) (s : State) : Outcome :=
  match decode w with
  | .error _ => s.unlessLatched (.next (s.raise .badCommand w))
  | .ok i => exec i s

/-- HostRead of a mapped location (R33): reserved bits and CMD read 0 (R14, R22). -/
def readLoc (s : State) : Loc → Word
  | .cmd => 0
  | .ctrl => s.ctrlWord
  | .status => s.statusWord
  | .errpos => s.errpos
  | .slen => s.slen
  | .blen => s.blen
  | .symcap => BitVec.ofNat 32 s.params.symCap
  | .bbcap => BitVec.ofNat 32 s.params.bbBytes
  | .tm i => s.tmWord i
  | .ct sym k => if k = 0 then (s.ctWord sym 0).setWidth 8 |>.setWidth 32 else s.ctWord sym k
  | .sb j => bufferWord s.sb j
  | .bb j => bufferWord s.bb j

/-- HostWrite of a mapped location (R34). A write to a read-only register does nothing (R22). -/
def writeLoc (s : State) (loc : Loc) (v : Word) : Outcome :=
  match loc with
  | .cmd => present v s
  | .ctrl => .next { s with ctrlFmt := Format.ofBit (v.getLsbD 0) }
  | .status => .next s
  | .errpos => .next s
  | .slen => .next { s with slen := v }
  | .blen => .next { s with blen := v }
  | .symcap => .next s
  | .bbcap => .next s
  | .tm i => .next (s.setTmWord i v)
  | .ct sym k => .next (s.setCtWord sym k v)
  | .sb j => .next (s.putSb (4 * j) (bytesOfWord v))
  | .bb j => .next (s.putBb (4 * j) (bytesOfWord v))

/-- Pair an outcome's state with a reply. -/
def withReply (r : Reply) : Outcome → Host.Outcome (State × Reply) Fault Refusal
  | .next s => .next (s, r)
  | .fault f => .fault f
  | .refused r' => .refused r'

/-- What the block does on one host operation, and its answer. An access that is not accepted is answered `BusError`
and has no effect (R32). -/
def serve (op : HostOp) (s : State) : Host.Outcome (State × Reply) Fault Refusal :=
  match op with
  | .hardReset => .next (s.resetBlock, .ok)
  | .read off size =>
    match accepted s.params off size with
    | none => .next (s, .busError)
    | some loc => .next (s, .data (readLoc s loc))
  | .write off size v =>
    match accepted s.params off size with
    | none => .next (s, .busError)
    | some loc => withReply .ok (writeLoc s loc v)

/-- What the host makes of the answer: it keeps the value of a read (R152; log 3), and its run is faulted where the
answer is `BusError` (R136; log 4). -/
def receive (op : HostOp) : Host.Outcome (State × Reply) Fault Refusal → Outcome
  | .next (s, .ok) => .next s
  | .next (s, .data w) => .next { s with reads := s.reads ++ [w] }
  | .next (_, .busError) => .fault (.busError op)
  | .fault f => .fault f
  | .refused r => .refused r

/-- One step of host and block (R6, R7): the next host operation is taken off the list and performed. With no
operation left the block waits (R146; log 2). -/
def hostStep (s : State) : Outcome :=
  match s.pending with
  | [] => .next s
  | op :: rest => receive op (serve op { s with pending := rest })

/-- Put a host operation before those pending. -/
def State.withOp (s : State) (op : HostOp) : State := { s with pending := op :: s.pending }

/-- The write of a word to CMD (R65). -/
def HostOp.cmdWrite (w : Word) : HostOp := .write Loc.cmd.offset 4 w

end Sys2Proof.Machine
end

