-- ==== Sys2Proof/Machine/Step.lean ====
section
/-!
DEFINITION. One step of the machine (spec/00_scope.md R6) and the placing of a command as the host's next operation.
-/

namespace Sys2Proof.Machine

/-- One step: the host's next operation, performed by the block. -/
def step (s : State) : Host.Outcome State Fault Refusal := hostStep s

/-- `s` with the write to CMD of a table row's word as the host's next operation (R12, R65; log 2). -/
def State.withFetchWord (s : State) (nbits w : Nat) : State :=
  s.withOp (HostOp.cmdWrite (BitVec.ofNat 32 (w % 2 ^ nbits)))

end Sys2Proof.Machine
end

