-- ==== Sys2Proof/Machine/HostPrep.lean ====
section
/-!
DEFINITION. The host's reference functions (spec/40_host_preparation.md R70 to R83, R87): frequency counter, tree
builder, code table generator, the images of the two tables, and the relation `Consistent` they establish. They run on
the host (spec/00_scope.md R3): none of them is a command of the block.
-/

namespace Sys2Proof.Machine

/-! ### Values (R70) -/

/-- A Huffman tree (R70): a leaf with its symbol and frequency, the synthetic placeholder leaf, or a node. -/
inductive HTree where
  | leaf (sym : Byte) (freq : Nat)
  | synth
  | node (freq : Nat) (l r : HTree)
  deriving DecidableEq, Repr

/-- 256 natural numbers indexed by symbol value (R70). -/
abbrev FreqTable := Byte → Nat

/-- A partial map from symbols to codes (R70), as the list of its entries. -/
abbrev CodeMap := List (Byte × List Bool)

/-- The frequency of a tree's root; the synthetic leaf has frequency 1 (R70). -/
def HTree.freq : HTree → Nat
  | .leaf _ f => f
  | .synth => 1
  | .node f _ _ => f

/-- The root has two children (R79). -/
def HTree.isNode : HTree → Bool
  | .node _ _ _ => true
  | _ => false

/-- The number of nodes of a tree, all kinds (R82). -/
def HTree.size : HTree → Nat
  | .leaf _ _ => 1
  | .synth => 1
  | .node _ l r => 1 + l.size + r.size

/-- The number of leaves, the synthetic one among them (R77). -/
def HTree.leaves : HTree → Nat
  | .leaf _ _ => 1
  | .synth => 1
  | .node _ l r => l.leaves + r.leaves

/-- The number of edges of the longest path (R77). -/
def HTree.depth : HTree → Nat
  | .leaf _ _ => 0
  | .synth => 0
  | .node _ l r => 1 + max l.depth r.depth

/-- The symbols of the real leaves, left to right (R77 a, R87). -/
def HTree.symbols : HTree → List Byte
  | .leaf sym _ => [sym]
  | .synth => []
  | .node _ l r => l.symbols ++ r.symbols

/-- Every internal node's frequency is the sum of its children's (R77). -/
def HTree.sumsUp : HTree → Bool
  | .leaf _ _ => true
  | .synth => true
  | .node f l r => f == l.freq + r.freq && l.sumsUp && r.sumsUp

/-! ### Frequency counter (R71) -/

/-- FrequencyCount(data) (R71). -/
def frequencyCount (data : List Byte) : FreqTable := fun sym => data.count sym

/-- The 256 symbol values in ascending order. -/
def allSymbols : List Byte := (List.range 256).map (BitVec.ofNat 8)

/-! ### Tree builder (R72 to R76) -/

/-- A node of the builder's set Q with its key (R75): frequency, class, ordinal. -/
structure Entry where
  freq : Nat
  cls : Nat
  ord : Nat
  tree : HTree
  deriving DecidableEq, Repr

/-- The order of the keys, first component first (R75). -/
def Entry.before (a b : Entry) : Bool :=
  decide (a.freq < b.freq) ||
    (a.freq == b.freq && (decide (a.cls < b.cls) || (a.cls == b.cls && decide (a.ord < b.ord))))

/-- Key of a real leaf: (f, 1, s) (R75). -/
def leafEntry (F : FreqTable) (sym : Byte) : Entry := ⟨F sym, 1, sym.toNat, .leaf sym (F sym)⟩

/-- Key of the synthetic leaf: (1, 0, 0) (R75). -/
def synthEntry : Entry := ⟨1, 0, 0, .synth⟩

/-- The internal node made j-th of the two extracted: the first is the left child (R76), the key (f, 2, j) (R75). -/
def mergeEntry (j : Nat) (x y : Entry) : Entry :=
  ⟨x.freq + y.freq, 2, j, .node (x.freq + y.freq) x.tree y.tree⟩

/-- Put an entry into Q, which is kept in ascending key order so that its head has the least key (log 8). -/
def enqueue (e : Entry) : List Entry → List Entry
  | [] => [e]
  | x :: q => if e.before x then e :: x :: q else x :: enqueue e q

/-- Step 1 (R72): one leaf per symbol with nonzero frequency. -/
def initialLeaves (F : FreqTable) : List Entry :=
  ((allSymbols.filter fun sym => F sym != 0).map (leafEntry F)).foldr enqueue []

/-- Step 2 (R74): with exactly one leaf, add the synthetic one. -/
def addSynth (q : List Entry) : List Entry :=
  if q.length = 1 then enqueue synthEntry q else q

/-- Step 4 (R76): merge the two least until one node remains. `left` bounds the number of merges. -/
def mergeAll : (left j : Nat) → List Entry → Option HTree
  | _, _, [] => none
  | _, _, [e] => some e.tree
  | 0, _, _ => none
  | left + 1, j, x :: y :: q => mergeAll left (j + 1) (enqueue (mergeEntry j x y) q)

/-- BuildTree(F) (R72 to R76): InvalidInput on an all-zero table (R73). -/
def buildTree (F : FreqTable) : Except ErrKind HTree :=
  match mergeAll (addSynth (initialLeaves F)).length 0 (addSynth (initialLeaves F)) with
  | some t => .ok t
  | none => .error .invalidInput

/-! ### Code table generator (R78, R79) -/

/-- The walk of R78: the codes below a node reached by the branch bits `path`. -/
def codeWalk : HTree → List Bool → CodeMap
  | .leaf sym _, path => [(sym, path)]
  | .synth, _ => []
  | .node _ l r, path => codeWalk l (path ++ [false]) ++ codeWalk r (path ++ [true])

/-- The code of a symbol in a tree: the branch bits from the root to its leaf (R78). -/
def HTree.codeOf (t : HTree) (sym : Byte) : Option (List Bool) := (codeWalk t []).lookup sym

/-- CodeTable(T) (R78); not defined on a tree whose root is a leaf (R79; log 8). -/
def codeTable (t : HTree) : Option CodeMap := if t.isNode then some (codeWalk t []) else none

/-! ### Images of the tables (R82, R83) -/

/-- The words of a tree laid out in pre-order from index `i` on (R82). -/
def tmWords (i : Nat) : HTree → List Word
  | .leaf sym _ => [leafWord sym]
  | .synth => [synthWord]
  | .node _ l r =>
    internalWord (BitVec.ofNat 9 (i + 1)) (BitVec.ofNat 9 (i + 1 + l.size)) ::
      (tmWords (i + 1) l ++ tmWords (i + 1 + l.size) r)

/-- TMImage(T) (R82): the words from TM[0] on; the words after them are 0. -/
def tmImage (t : HTree) : List Word := tmWords 0 t

/-- Word k of a code (R54, R83): code bits 32(k-1) to 32(k-1) + 31, the first in bit 31, 0 beyond the code. -/
def codeWord (code : List Bool) (k : Nat) : Word :=
  BitVec.ofNat 32 (((List.range 32).map fun j => (padBit code (32 * (k - 1) + j)).toNat * 2 ^ (31 - j)).sum)

/-- The nine words of a code's table entry (R83). -/
def ctEntry (code : List Bool) : List Word :=
  BitVec.ofNat 32 code.length :: (List.range 8).map fun k => codeWord code (k + 1)

/-- The nine words CTImage(C) gives a symbol (R83): all 0 where the symbol has no code. -/
def ctImage (c : CodeMap) (sym : Byte) : List Word :=
  match c.lookup sym with
  | some code => ctEntry code
  | none => List.replicate 9 0

/-! ### Consistent tables (R87) -/

/-- The words of TM reached from index `i` have the shape of the tree: INTERNAL with the children's indices, LEAF with
the leaf's symbol, SYNTH for the synthetic leaf (R87). -/
def HTree.laidOut (s : State) : HTree → NodeIdx → Bool
  | .leaf sym _, i => nodeTag (s.tmWord i) == .leaf && nodeSym (s.tmWord i) == sym
  | .synth, i => nodeTag (s.tmWord i) == .synth
  | .node _ l r, i =>
    nodeTag (s.tmWord i) == .internal && l.laidOut s (nodeLeft (s.tmWord i)) &&
      r.laidOut s (nodeRight (s.tmWord i))

/-- The indices the layout of a tree from index `i` occupies, in pre-order. -/
def HTree.indices (s : State) : HTree → NodeIdx → List NodeIdx
  | .leaf _ _, i => [i]
  | .synth, i => [i]
  | .node _ l r, i =>
    i :: (l.indices s (nodeLeft (s.tmWord i)) ++ r.indices s (nodeRight (s.tmWord i)))

/-- TM[0 .. size-1] is a layout of the tree with its root at index 0, distinct nodes at distinct indices (R87). -/
abbrev HTree.layoutIn (t : HTree) (s : State) : Prop :=
  t.isNode = true ∧ t.laidOut s root = true ∧ (t.indices s root).Nodup ∧
    ∀ i ∈ t.indices s root, i.toNat < t.size

/-- The entry of CT for a symbol is what the tree gives it (R87): absent where it is no leaf, else its path. -/
def codeMatches (s : State) (t : HTree) (sym : Byte) : Bool :=
  match t.codeOf sym with
  | none => s.ctLen sym == 0
  | some code => s.ctLen sym == code.length && s.codeBits sym == code

/-- Consistent(CT, TM) as witnessed by a tree (R87). -/
abbrev ConsistentWith (s : State) (t : HTree) : Prop :=
  t.layoutIn s ∧ t.symbols.Nodup ∧ ∀ sym ∈ allSymbols, codeMatches s t sym = true

/-- Consistent(CT, TM) (R87). The block does not check it. -/
def Consistent (s : State) : Prop := ∃ t, ConsistentWith s t

end Sys2Proof.Machine
end

