-- ==== Sys2Proof/Machine/HostProgram.lean ====
section
/-!
DEFINITION. Host programs: the notation of spec/30_encoding.md R64 to R66, a run (spec/70_reset_and_hazards.md R152),
and the two public operations compress and decompress as programs over the block (spec/40_host_preparation.md R84,
R85).
-/

namespace Sys2Proof.Machine

/-! ### Notation (R64 to R66) -/

/-- `WR off, val` at a mapped location (R64). -/
def HostOp.wr (loc : Loc) (v : Word) : HostOp := .write loc.offset 4 v

/-- `RD off` at a mapped location (R64). -/
def HostOp.rd (loc : Loc) : HostOp := .read loc.offset 4

/-- A mnemonic alone on a line: the write of its word to CMD (R65). -/
def HostOp.command (i : Instr) : HostOp := .cmdWrite (encode i)

/-! ### A run (R152) -/

/-- The operations in order, with their answers. A run goes on after a `BusError` (R32, R136). -/
def runOps : List HostOp → State → Host.Outcome (State × List Reply) Fault Refusal
  | [], s => .next (s, [])
  | op :: ops, s =>
    match serve op s with
    | .fault f => .fault f
    | .refused r => .refused r
    | .next (s', reply) =>
      match runOps ops s' with
      | .fault f => .fault f
      | .refused r => .refused r
      | .next (t, replies) => .next (t, reply :: replies)

/-- A run in which some access was answered `BusError` is a faulted run (R152). -/
def faultedRun (replies : List Reply) : Bool := replies.contains .busError

/-- The values the run's reads returned (R152). -/
def readValues : List Reply → List Word
  | [] => []
  | .data w :: rest => w :: readValues rest
  | .ok :: rest => readValues rest
  | .busError :: rest => readValues rest

/-- The first operation of a run that was answered `BusError`. -/
def firstBusError : List HostOp → List Reply → Option HostOp
  | op :: ops, r :: replies => if r = .busError then some op else firstBusError ops replies
  | _, _ => none

/-- A stretch of a host program: the run of its operations, and the values read. A program that draws a `BusError` is
faulted (R136), at the first operation that drew it; that compress and decompress end there, where R84 and R85 do not
say what they do, is the model's choice (DESIGN CHOICE, log 4). -/
def runProgram (ops : List HostOp) (s : State) : Host.Outcome (State × List Word) Fault Refusal :=
  match runOps ops s with
  | .fault f => .fault f
  | .refused r => .refused r
  | .next (t, replies) =>
    match firstBusError ops replies with
    | some op => .fault (.busError op)
    | none => .next (t, readValues replies)

/-! ### Loading and unloading -/

/-- Four bytes a word, first byte in bits 7:0 (R35, R84). DESIGN CHOICE (log 15): a last word that the bytes do not fill is
filled up with 0; no rule gives the bytes behind the data or stream. -/
def bufferWords : List Byte → List Word
  | [] => []
  | [b0] => [wordOfBytes b0 0 0 0]
  | [b0, b1] => [wordOfBytes b0 b1 0 0]
  | [b0, b1, b2] => [wordOfBytes b0 b1 b2 0]
  | b0 :: b1 :: b2 :: b3 :: rest => wordOfBytes b0 b1 b2 b3 :: bufferWords rest

/-- Writes of consecutive words, the j-th to the location `loc j`. -/
def writeWords (loc : Nat → Loc) (j : Nat) : List Word → List HostOp
  | [] => []
  | w :: ws => .wr (loc j) w :: writeWords loc (j + 1) ws

/-- Writes of the nonzero ones of consecutive words (R84, R85), the j-th to the offset `off j`. -/
def writeNonzero (off : Nat → Nat) (j : Nat) : List Word → List HostOp
  | [] => []
  | w :: ws => if w = 0 then writeNonzero off (j + 1) ws else .write (off j) 4 w :: writeNonzero off (j + 1) ws

/-- The offset `TM[i]` stands for (R66), whether or not TM has a word i. -/
def tmOffset (i : Nat) : Nat := 0x800 + 4 * i

/-- Write every nonzero word of CTImage(C) (R84). -/
def loadCt (c : CodeMap) : List HostOp :=
  (c.map fun e => writeNonzero (fun k => (Loc.ct e.1 k).offset) 0 (ctEntry e.2)).flatten

/-- Write every nonzero word of TMImage(T) (R84, R85). -/
def loadTm (t : HTree) : List HostOp := writeNonzero tmOffset 0 (tmImage t)

/-- Write the data into SB, four symbols a word, and SLEN (R84). No length is tested before (log 14). -/
def loadData (data : List Byte) : List HostOp :=
  writeWords .sb 0 (bufferWords data) ++ [.wr .slen (BitVec.ofNat 32 data.length)]

/-- Write the bytes of a stream into BB, and BLEN (R85). No length is tested before (log 14). -/
def loadStream (n : Nat) (bytes : List Byte) : List HostOp :=
  writeWords .bb 0 (bufferWords bytes) ++ [.wr .blen (BitVec.ofNat 32 n)]

/-- Reads of the words that hold the first `n` bytes of a buffer. -/
def readBuffer (loc : Nat → Loc) (n : Nat) : List HostOp :=
  (List.range ((n + 3) / 4)).map fun j => .rd (loc j)

/-- The first `n` bytes of the words read (R35). -/
def unpackWords (n : Nat) (ws : List Word) : List Byte := (ws.map bytesOfWord).flatten.take n

/-! ### compress and decompress (R84, R85) -/

/-- The document's EncodedResult as the host keeps it (R84): length in bits, bytes, format, tree. -/
structure EncodedResult where
  n : Nat
  bytes : List Byte
  fmt : Format
  tree : HTree
  deriving DecidableEq, Repr

/-- How many bytes a stream of `n` bits takes (R58, R59, R84). -/
def streamBytes (n : Nat) : Format → Nat
  | .packed => (n + 7) / 8
  | .character => n

/-- The word a format writes to CTRL (R15). -/
def Format.word (fmt : Format) : Word := if fmt.toBit then 1 else 0

/-- The error kind a STATUS word names (R125); none for code 0 and for the codes that are never produced. -/
def ErrKind.ofStatus (w : Word) : Option ErrKind :=
  [ErrKind.invalidInput, .lookupError, .invalidBit, .malformedStream, .badTree, .overflow, .badCommand].find?
    fun k => w.toNat == k.code.toNat

/-- Run the operations `ops`, read STATUS, and go on where no error is latched; where one is, CLRERR is issued and the
program fails with its kind (R84, R85; log 9). R84 and R85 do not say what happens where one of the operations is
answered `BusError` (data longer than SYM_CAP, bytes longer than BB_BYTES, a tree of more nodes than TM has words):
DESIGN CHOICE (log 4), the program ends there in the fault, as R136 advises. -/
def attempt {α : Type} (ops : List HostOp) (s : State)
    (k : State → Host.Outcome (State × Except ErrKind α) Fault Refusal) :
    Host.Outcome (State × Except ErrKind α) Fault Refusal :=
  match runProgram (ops ++ [.rd .status]) s with
  | .fault f => .fault f
  | .refused r => .refused r
  | .next (t, values) =>
    match ErrKind.ofStatus (values.getLastD 0) with
    | none => k t
    | some kind =>
      match runProgram [.command .clrerr] t with
      | .fault f => .fault f
      | .refused r => .refused r
      | .next (u, _) => .next (u, .error kind)

/-- Run the operations and hand the values read to the rest of the program; a `BusError` answer faults it (log 4). -/
def collect {α : Type} (ops : List HostOp) (s : State)
    (k : State → List Word → Host.Outcome (State × Except ErrKind α) Fault Refusal) :
    Host.Outcome (State × Except ErrKind α) Fault Refusal :=
  match runProgram ops s with
  | .fault f => .fault f
  | .refused r => .refused r
  | .next (t, values) => k t values

/-- Read a length register, then the bytes it says a buffer holds (R84, R85). -/
def fetchBuffer {α : Type} (len : Loc) (buf : Nat → Loc) (bytesOf : Nat → Nat)
    (result : Nat → List Byte → α) (s : State) : Host.Outcome (State × Except ErrKind α) Fault Refusal :=
  collect [.rd len] s fun s₁ v =>
    collect (readBuffer buf (bytesOf (v.headD 0).toNat)) s₁ fun s₂ ws =>
      .next (s₂, .ok (result (v.headD 0).toNat (unpackWords (bytesOf (v.headD 0).toNat) ws)))

/-- The operations of compress up to ENCODE (R84). -/
def compressOps (data : List Byte) (fmt : Format) (t : HTree) (c : CodeMap) : List HostOp :=
  .command .clrct :: (loadCt c ++ .command .clrtm :: (loadTm t ++
    (.wr .ctrl fmt.word :: (loadData data ++ [.command .encode]))))

/-- compress(data) (R84): InvalidInput on empty data, before the block is touched. -/
def compress (data : List Byte) (fmt : Format) (s : State) :
    Host.Outcome (State × Except ErrKind EncodedResult) Fault Refusal :=
  if data = [] then .next (s, .error .invalidInput)
  else
    match buildTree (frequencyCount data) with
    | .error k => .next (s, .error k)
    | .ok t =>
      match codeTable t with
      | none => .next (s, .error .invalidInput)
      | some c =>
        attempt (compressOps data fmt t c) s
          (fetchBuffer .blen .bb (fun n => streamBytes n fmt) fun n bytes => ⟨n, bytes, fmt, t⟩)

/-- The operations of decompress up to DECODE (R85). -/
def decompressOps (r : EncodedResult) : List HostOp :=
  .command .clrtm :: (loadTm r.tree ++ (.wr .ctrl r.fmt.word ::
    (loadStream r.n r.bytes ++ [.command .decode])))

/-- decompress(result) (R85). -/
def decompress (r : EncodedResult) (s : State) :
    Host.Outcome (State × Except ErrKind (List Byte)) Fault Refusal :=
  attempt (decompressOps r) s (fetchBuffer .slen .sb (fun m => m) fun _ bytes => bytes)

end Sys2Proof.Machine
end

