-- ==== Sys2Proof/Safety.lean ====
section
/-!
DEFINITION. What claims about runs use: the invariant of the reachable states, and a safe step.
-/

namespace Sys2Proof.Machine

/-- A cell of CT is one of its 9 words a symbol and its reserved bits are 0 (R22, R23, R54). -/
def ctCellOk (c : Nat × Word) : Bool :=
  decide (c.1 < 4096) && decide (c.1 % 16 ≤ 8) && (c.2 &&& ctMask (c.1 % 16) == c.2)

/-- A cell of TM is one of its 512 words and its reserved bits are 0 (R22, R24, R55). -/
def tmCellOk (c : Nat × Word) : Bool := decide (c.1 < 512) && (c.2 &&& tmMask == c.2)

/-- All four memories are in canonical form (log 5). -/
abbrev State.memWf (s : State) : Prop :=
  Memory.wf s.ct ∧ Memory.wf s.tm ∧ Memory.wf s.sb ∧ Memory.wf s.bb

/-- Every listed cell exists in the block (R23 to R26) and holds no reserved bit (R22). -/
abbrev State.cellsOk (s : State) : Prop :=
  s.ct.all ctCellOk = true ∧ s.tm.all tmCellOk = true ∧
    s.sb.all (fun c => decide (c.1 < s.params.symCap)) = true ∧
    s.bb.all (fun c => decide (c.1 < s.params.bbBytes)) = true

/-- STATUS and ERRPOS: the block never writes InvalidInput (R133), and ERRPOS is 0 while no error is latched (R17). -/
abbrev State.errOk (s : State) : Prop :=
  s.statusErr ≠ some .invalidInput ∧ (s.statusErr = none → s.errpos = 0)

/-- The invariant of the reachable states. -/
abbrev State.Inv (s : State) : Prop := s.memWf ∧ s.cellsOk ∧ s.errOk

/-- CodeBits(SB[i]) ++ ... ++ CodeBits(SB[i + n - 1]) (R92). -/
def State.codesFrom (s : State) (i n : Nat) : List Bool :=
  ((List.range n).map fun j => s.codeBits (s.sbByte (i + j))).flatten

/-- The sum of CT[SB[j]].LEN over j in i .. i + n - 1 (R92, R96). -/
def State.lensFrom (s : State) (i n : Nat) : Nat :=
  ((List.range n).map fun j => s.ctLen (s.sbByte (i + j))).sum

/-- ENCODE meets no error: every symbol of the data has a code and the codes fit BB (R90, R95). -/
abbrev State.encodable (s : State) : Prop :=
  s.slen.toNat ≤ s.params.symCap ∧ (∀ i < s.slen.toNat, s.ctLen (s.sbByte i) ≠ 0) ∧
    s.lensFrom 0 s.slen.toNat ≤ bitCap s.params s.ctrlFmt

/-- BB under the format and length in force holds this bit sequence (R57). -/
abbrev State.streamIs (s : State) (bits : List Bool) : Prop :=
  s.blen.toNat = bits.length ∧
    ∀ p < bits.length, s.bitChar s.ctrlFmt p = BitChar.ofBool (padBit bits p)

/-- The codes a tree gives a sequence of symbols, concatenated (R92). -/
def HTree.codesOf (t : HTree) (syms : List Byte) : List Bool :=
  (syms.map fun y => (t.codeOf y).getD []).flatten

/-- A step that ends in a next state: no host access was answered `BusError` (R136). -/
def safeStep (s : State) : Bool :=
  match step s with
  | .next _ => true
  | .fault _ => false
  | .refused _ => false

end Sys2Proof.Machine
end

