-- ==== Sys2Proof/Certificates/Slice0/Obligations.lean ====
section
/-!
DEFINITION. The statements for the provers. Each docstring names the rule of spec/ it formalises, or says whose choice
it rests on.
-/

open Sys2Proof Sys2Proof.Machine

/-! ### Command words (spec/30_encoding.md R50 to R53) -/

/-- R52: each command is selected by its full 32-bit word, and by no other word. -/
def Obligations.SelectedByFullWord : Prop :=
  ∀ w : Word,
    (decode w = .ok .nop ↔ w = 0x00000000) ∧ (decode w = .ok .encode ↔ w = 0x01000000) ∧
    (decode w = .ok .decode ↔ w = 0x02000000) ∧ (decode w = .ok .clrerr ↔ w = 0x03000000) ∧
    (decode w = .ok .clrct ↔ w = 0x04000000) ∧ (decode w = .ok .clrtm ↔ w = 0x05000000) ∧
    (decode w = .ok .srst ↔ w = 0x06000000)

/-- R53: a word with OPC in 0x07..0xFF or ARG ≠ 0 is illegal, is named so by the decoder, and when taken with no error
latched it raises BadCommand with ERRPOS the word itself, and nothing else changes. Every other word is a command. -/
def Obligations.IllegalWordsRaiseBadCommand : Prop :=
  ∀ w : Word,
    (7 ≤ w.toNat / 2 ^ 24 → decode w = .error (.illegalOpcode w)) ∧
    (w.toNat / 2 ^ 24 ≤ 6 → w.toNat % 2 ^ 24 ≠ 0 → decode w = .error (.nonzeroArg w)) ∧
    (w.toNat / 2 ^ 24 ≤ 6 → w.toNat % 2 ^ 24 = 0 → ∃ i, decode w = .ok i) ∧
    ∀ s : State, s.statusErr = none → (7 ≤ w.toNat / 2 ^ 24 ∨ w.toNat % 2 ^ 24 ≠ 0) →
      present w s = .next { s with statusErr := some .badCommand, errpos := w }

/-- Decoding the word of a command gives the command back. -/
def Obligations.DecodeOfEncode : Prop := ∀ i : Instr, i.wf = true → decode (encode i) = .ok i

/-- A few words written out from R52 and R53. -/
def Obligations.FewWordsDecode : Prop :=
  decode 0x02000000 = .ok .decode ∧ decode 0x06000000 = .ok .srst ∧
    decode 0x01000001 = .error (.nonzeroArg 0x01000001) ∧ decode 0x07000000 = .error (.illegalOpcode 0x07000000)

/-- The step runs the decoded command: the host's write of a command's word to CMD is exec of the command, once the
operation is taken off the host's list. The list is the model's (log 2). -/
def Obligations.StepRunsDecodedInstruction : Prop :=
  ∀ (s : State) (w : Word) (i : Instr) (rest : List HostOp),
    s.pending = .write 0x00000 4 w :: rest → decode w = .ok i → step s = exec i { s with pending := rest }

/-- R51: the dispatcher's three cases in their order. -/
def Obligations.DispatchOrder : Prop :=
  ∀ (w : Word) (s : State),
    present w s =
      if s.statusErr ≠ none ∧ w ≠ 0x03000000 ∧ w ≠ 0x06000000 then .next s
      else if w = 0x00000000 then exec .nop s
      else if w = 0x01000000 then exec .encode s
      else if w = 0x02000000 then exec .decode s
      else if w = 0x03000000 then exec .clrerr s
      else if w = 0x04000000 then exec .clrct s
      else if w = 0x05000000 then exec .clrtm s
      else if w = 0x06000000 then exec .srst s
      else .next { s with statusErr := some .badCommand, errpos := w }

/-! ### Errors (spec/60_exceptions.md R125 to R131) -/

/-- R130: while an error is latched every word but CLRERR and SRST is dropped, host accesses to every other location
are performed as they would be without it, and the error is never overwritten by a later one. -/
def Obligations.LatchedErrorDropsCommands : Prop :=
  ∀ (s : State) (k : ErrKind), s.statusErr = some k →
    (∀ w : Word, w ≠ 0x03000000 → w ≠ 0x06000000 → present w s = .next s) ∧
    (∀ (w : Word) (t : State), present w s = .next t → t.statusErr = some k ∧ t.errpos = s.errpos ∨ t.statusErr = none) ∧
    (∀ (loc : Loc) (v : Word), loc ≠ .cmd → ∃ t,
      writeLoc { s with statusErr := none, errpos := 0 } loc v = .next t ∧
        writeLoc s loc v = .next { t with statusErr := s.statusErr, errpos := s.errpos }) ∧
    ∀ loc : Loc, loc ≠ .status → loc ≠ .errpos →
      readLoc s loc = readLoc { s with statusErr := none, errpos := 0 } loc

/-- Over every step: a latched error stays, with its position, unless the step is a hard reset, CLRERR or SRST. -/
def Obligations.LatchedErrorPersists : Prop :=
  ∀ (s t : State) (k : ErrKind), s.statusErr = some k → step s = .next t →
    (t.statusErr = some k ∧ t.errpos = s.errpos) ∨
    (t.statusErr = none ∧ t.errpos = 0 ∧ ∃ rest, s.pending = .hardReset :: rest ∨
      s.pending = .write 0x00000 4 0x03000000 :: rest ∨ s.pending = .write 0x00000 4 0x06000000 :: rest)

/-- R128: a command that raises changes STATUS and ERRPOS and nothing else. -/
def Obligations.RaisingCommandChangesOnlyStatus : Prop :=
  ∀ (w : Word) (s t : State), s.statusErr = none → present w s = .next t → t.statusErr ≠ none →
    t = { s with statusErr := t.statusErr, errpos := t.errpos }

/-- What STATUS and ERRPOS can read: a code of R125 that the block produces, and ERRPOS 0 while no error is latched. -/
def Obligations.StatusReadsProducedCodes : Prop :=
  ∀ s : State, s.errOk →
    (readLoc s .status).toNat ∈ [0, 2, 3, 4, 5, 6, 7] ∧ (readLoc s .status = 0 → readLoc s .errpos = 0)

/-! ### Host accesses (spec/20_memory.md R31 to R38) -/

/-- R33: what a read of each location returns; a read changes no state. -/
def Obligations.HostReadValues : Prop :=
  ∀ s : State, s.Inv → ∀ loc : Loc, loc.mapped s.params = true →
    ∃ v : Word, serve (.read loc.offset 4) s = .next (s, .data v) ∧
      match loc with
      | .cmd => v = 0
      | .ctrl => v = match s.ctrlFmt with
        | .packed => 0
        | .character => 1
      | .status => v = match s.statusErr with
        | none => 0
        | some .invalidInput => 1
        | some .lookupError => 2
        | some .invalidBit => 3
        | some .malformedStream => 4
        | some .badTree => 5
        | some .overflow => 6
        | some .badCommand => 7
      | .errpos => v = s.errpos
      | .slen => v = s.slen
      | .blen => v = s.blen
      | .symcap => v.toNat = s.params.symCap
      | .bbcap => v.toNat = s.params.bbBytes
      | .tm i => v = s.tmWord i ∧ v &&& 0x3E00FE00 = 0
      | .ct y k => if k = 0 then v.toNat = s.ctLen y else v = s.ctWord y k
      | .sb j => ∀ b < 4, v.extractLsb' (8 * b) 8 = s.sbByte (4 * j + b)
      | .bb j => ∀ b < 4, v.extractLsb' (8 * b) 8 = s.bbByte (4 * j + b)

/-- R34: what a write of each location does, whatever STATUS.ERR is, and what it leaves. -/
def Obligations.HostWriteEffects : Prop :=
  ∀ (s : State) (loc : Loc) (v : Word), loc.mapped s.params = true →
    match loc with
    | .cmd => serve (.write loc.offset 4 v) s = withReply .ok (present v s)
    | .ctrl => serve (.write loc.offset 4 v) s =
        .next ({ s with ctrlFmt := if v.getLsbD 0 then .character else .packed }, .ok)
    | .status => serve (.write loc.offset 4 v) s = .next (s, .ok)
    | .errpos => serve (.write loc.offset 4 v) s = .next (s, .ok)
    | .symcap => serve (.write loc.offset 4 v) s = .next (s, .ok)
    | .bbcap => serve (.write loc.offset 4 v) s = .next (s, .ok)
    | .slen => serve (.write loc.offset 4 v) s = .next ({ s with slen := v }, .ok)
    | .blen => serve (.write loc.offset 4 v) s = .next ({ s with blen := v }, .ok)
    | .tm i => ∃ t, serve (.write loc.offset 4 v) s = .next (t, .ok) ∧ t = { s with tm := t.tm } ∧
        t.tmWord i = v &&& 0xC1FF01FF ∧ ∀ j, j ≠ i → t.tmWord j = s.tmWord j
    | .ct y k => ∃ t, serve (.write loc.offset 4 v) s = .next (t, .ok) ∧ t = { s with ct := t.ct } ∧
        t.ctWord y k = (if k = 0 then v &&& 0x000000FF else v) ∧
        ∀ y' k', k' ≤ 8 → (y' ≠ y ∨ k' ≠ k) → t.ctWord y' k' = s.ctWord y' k'
    | .sb j => ∃ t, serve (.write loc.offset 4 v) s = .next (t, .ok) ∧ t = { s with sb := t.sb } ∧
        (∀ b < 4, t.sbByte (4 * j + b) = v.extractLsb' (8 * b) 8) ∧
        ∀ a, (a < 4 * j ∨ 4 * j + 4 ≤ a) → t.sbByte a = s.sbByte a
    | .bb j => ∃ t, serve (.write loc.offset 4 v) s = .next (t, .ok) ∧ t = { s with bb := t.bb } ∧
        (∀ b < 4, t.bbByte (4 * j + b) = v.extractLsb' (8 * b) 8) ∧
        ∀ a, (a < 4 * j ∨ 4 * j + 4 ≤ a) → t.bbByte a = s.bbByte a

/-- R31, R32: an access reaches a location exactly when it is a 32-bit access at the offset the map gives it. -/
def Obligations.AcceptedAccesses : Prop :=
  ∀ (p : Params) (off size : Nat) (loc : Loc),
    accepted p off size = some loc ↔ size = 4 ∧ loc.mapped p = true ∧ loc.offset = off

/-- R32: an access is accepted exactly when its size is 4, its offset a multiple of 4 below 0x30000 and mapped; any
other is answered BusError with no effect on any state. -/
def Obligations.OtherAccessesAnswerBusError : Prop :=
  ∀ (s : State) (off size : Nat),
    ((size = 4 ∧ off % 4 = 0 ∧ off < 0x30000 ∧ ∃ loc : Loc, loc.mapped s.params = true ∧ loc.offset = off) →
      (∃ v, serve (.read off size) s = .next (s, .data v)) ∧
        ∀ v, ∃ t, serve (.write off size v) s = .next (t, .ok)) ∧
    ((size ≠ 4 ∨ off % 4 ≠ 0 ∨ 0x30000 ≤ off ∨ ∀ loc : Loc, loc.mapped s.params = true → loc.offset ≠ off) →
      serve (.read off size) s = .next (s, .busError) ∧ ∀ v, serve (.write off size v) s = .next (s, .busError))

/-- Reading a location after a write to it gives the written word less its reserved bits (a read-only register: what it
read before), and every other location reads as before. -/
def Obligations.ReadAfterWrite : Prop :=
  ∀ (s : State) (loc : Loc) (v : Word), loc.mapped s.params = true → loc ≠ .cmd →
    ∃ t, serve (.write loc.offset 4 v) s = .next (t, .ok) ∧
      (∀ loc', loc'.mapped s.params = true → loc' ≠ loc → readLoc t loc' = readLoc s loc') ∧
      readLoc t loc = match loc with
        | .ctrl => v &&& 1
        | .status => readLoc s .status
        | .errpos => s.errpos
        | .symcap => readLoc s .symcap
        | .bbcap => readLoc s .bbcap
        | .tm _ => v &&& 0xC1FF01FF
        | .ct _ k => if k = 0 then v &&& 0x000000FF else v
        | _ => v

/-- A write to any location other than CMD, issued twice, is the same as once, as a state. -/
def Obligations.WritesAreIdempotent : Prop :=
  ∀ (s t : State) (loc : Loc) (v : Word), s.memWf → loc.mapped s.params = true → loc ≠ .cmd →
    serve (.write loc.offset 4 v) s = .next (t, .ok) → serve (.write loc.offset 4 v) t = .next (t, .ok)

/-- One step performs one operation of the host's list, or waits where the list is empty; an accepted read adds the
value it returns to the list of values read, and nothing else changes that list. The two lists and the waiting are the
model's choice (log 2, log 3). -/
def Obligations.StepTakesOneOperation : Prop :=
  ∀ s t : State, step s = .next t →
    t.pending = s.pending.tail ∧ (s.pending = [] → t = s) ∧
    (∀ off size loc rest, s.pending = .read off size :: rest → accepted s.params off size = some loc →
      t.reads = s.reads ++ [readLoc s loc]) ∧
    ((∀ off size loc rest, s.pending = .read off size :: rest → accepted s.params off size ≠ some loc) →
      t.reads = s.reads)

/-- Every host operation completes: a step answers a next state, or the fault of a `BusError` answer, which left the
block's state as it was; a command always answers a next state. That the step ends in a fault there, and that it waits
with no operation left, are the model's choices (log 4, log 2). -/
def Obligations.EveryOperationCompletes : Prop :=
  (∀ s : State, (∃ t, step s = .next t) ∨
    ∃ op rest, s.pending = op :: rest ∧ step s = .fault (.busError op) ∧
      serve op { s with pending := rest } = .next ({ s with pending := rest }, .busError)) ∧
  ∀ (i : Instr) (s : State), ∃ t, exec i s = .next t

/-- The block is reached at the host addresses BASE to BASE + 0x2FFFF, an offset being the address's low 18 bits. -/
def Obligations.WindowAddresses : Prop :=
  ∀ (p : Params) (addr off : Nat), offsetOfAddress p addr = some off ↔
    p.base ≤ addr ∧ addr < p.base + 0x30000 ∧ off = addr % 0x40000

/-! ### Reset (spec/10_state.md R29, spec/70_reset_and_hazards.md R145, R146) -/

/-- R29: a hard reset and SRST produce exactly the same state, every piece of it at the value of R29's table. -/
def Obligations.HardResetAndSrst : Prop :=
  ∀ (s : State) (rest : List HostOp), s.pending = .hardReset :: rest →
    ∃ t, step s = .next t ∧ exec .srst { s with pending := rest } = .next t ∧
      t.ctrlFmt = .packed ∧ t.statusErr = none ∧ t.errpos = 0 ∧ t.slen = 0 ∧ t.blen = 0 ∧
      (∀ y k, t.ctWord y k = 0) ∧ (∀ i, t.tmWord i = 0) ∧ (∀ k, t.sbByte k = 0) ∧ (∀ k, t.bbByte k = 0) ∧
      t.params = s.params

/-- R119: SRST, whatever STATUS.ERR is; a hard reset leaves the same state. -/
def Obligations.SrstResetsEverything : Prop :=
  decode 0x06000000 = .ok .srst ∧ ∀ s : State, ∃ t, exec .srst s = .next t ∧ serve .hardReset s = .next (t, .ok) ∧
    t.ctrlFmt = .packed ∧ t.statusErr = none ∧ t.errpos = 0 ∧ t.slen = 0 ∧ t.blen = 0 ∧
    (∀ y k, t.ctWord y k = 0) ∧ (∀ i, t.tmWord i = 0) ∧ (∀ k, t.sbByte k = 0) ∧ (∀ k, t.bbByte k = 0) ∧
    readLoc t .symcap = readLoc s .symcap ∧ readLoc t .bbcap = readLoc s .bbcap

/-- R146: the reset state of every block, what the two coding commands make of it, and of it with only a length
changed. -/
def Obligations.ResetStateCommands : Prop :=
  ∀ (p : Params) (s : State), s = State.resetFor p →
    (∀ loc, loc.mapped p = true → loc ≠ .symcap → loc ≠ .bbcap → readLoc s loc = 0) ∧
    step s = .next s ∧ exec .encode s = .next s ∧ exec .decode s = .next s ∧
    (∀ n : Word, 1 ≤ n.toNat → n.toNat ≤ p.symCap → exec .encode { s with slen := n } =
      .next { s with slen := n, statusErr := some .lookupError, errpos := 0 }) ∧
    ∀ n : Word, 1 ≤ n.toNat → n.toNat ≤ 8 * p.bbBytes → exec .decode { s with blen := n } =
      .next { s with blen := n, statusErr := some .badTree, errpos := 0 }

/-- The invariant holds at reset, whatever the parameters. Its clause that the memories are in canonical form (`memWf`)
is the model's choice (log 5) and follows from no rule. -/
def Obligations.InvariantAtReset : Prop := State.reset.Inv ∧ ∀ p : Params, (State.resetFor p).Inv

/-- The invariant is kept by every step, from every state: memories in canonical form and inside their capacities,
reserved bits 0, no InvalidInput in STATUS, ERRPOS 0 while no error is latched. The canonical form (`memWf`) is the
model's choice (log 5) and follows from no rule; the other clauses are the spec's. -/
def Obligations.StepKeepsInvariant : Prop := ∀ s t : State, s.Inv → step s = .next t → t.Inv

/-- R20, R21: SYMCAP and BBCAP read the capacities, writes to them are ignored, and no step changes them, a reset
included. -/
def Obligations.CapacitiesNeverChange : Prop :=
  ∀ s t : State, step s = .next t → ∃ v w : Word,
    v.toNat = s.params.symCap ∧ serve (.read 0x00018 4) s = .next (s, .data v) ∧
      serve (.read 0x00018 4) t = .next (t, .data v) ∧ (∀ x, serve (.write 0x00018 4 x) s = .next (s, .ok)) ∧
    w.toNat = s.params.bbBytes ∧ serve (.read 0x0001C 4) s = .next (s, .data w) ∧
      serve (.read 0x0001C 4) t = .next (t, .data w) ∧ ∀ x, serve (.write 0x0001C 4 x) s = .next (s, .ok)

/-- Only these operations change a memory or CTRL: the host's write to a location it has, a hard reset, SRST, and the
command that clears or fills it. -/
def Obligations.MemoriesChangeOnlyBy : Prop :=
  ∀ s t : State, step s = .next t →
    (t.ct ≠ s.ct → ∃ op rest, s.pending = op :: rest ∧
      (op = .hardReset ∨ (∃ y k v, k ≤ 8 ∧ op = .wr (.ct y k) v) ∨ op = .command .clrct ∨ op = .command .srst)) ∧
    (t.tm ≠ s.tm → ∃ op rest, s.pending = op :: rest ∧
      (op = .hardReset ∨ (∃ i v, op = .wr (.tm i) v) ∨ op = .command .clrtm ∨ op = .command .srst)) ∧
    (t.sb ≠ s.sb → ∃ op rest, s.pending = op :: rest ∧
      (op = .hardReset ∨ (∃ j v, 4 * j < s.params.symCap ∧ op = .wr (.sb j) v) ∨ op = .command .decode ∨
        op = .command .srst)) ∧
    (t.bb ≠ s.bb → ∃ op rest, s.pending = op :: rest ∧
      (op = .hardReset ∨ (∃ j v, 4 * j < s.params.bbBytes ∧ op = .wr (.bb j) v) ∨ op = .command .encode ∨
        op = .command .srst)) ∧
    (t.ctrlFmt ≠ s.ctrlFmt → ∃ op rest, s.pending = op :: rest ∧
      (op = .hardReset ∨ (∃ v, op = .wr .ctrl v) ∨ op = .command .srst))

/-! ### Housekeeping commands (spec/43_housekeeping.md R115 to R118) -/

/-- R115: NOP changes nothing, also while an error is latched; the word 0x00000001 is not NOP. -/
def Obligations.NopChangesNothing : Prop :=
  (∀ s : State, exec .nop s = .next s) ∧ decode 0x00000000 = .ok .nop ∧
    decode 0x00000001 = .error (.nonzeroArg 0x00000001)

/-- R116: CLRERR, whatever STATUS.ERR is; with no error latched it changes nothing; after a failed command it gives
back the state before that command. -/
def Obligations.ClrerrClearsErrorOnly : Prop :=
  decode 0x03000000 = .ok .clrerr ∧
  (∀ s : State, exec .clrerr s = .next { s with statusErr := none, errpos := 0 }) ∧
  (∀ s : State, s.errOk → s.statusErr = none → exec .clrerr s = .next s) ∧
  ∀ (i : Instr) (s t : State), s.errOk → s.statusErr = none → exec i s = .next t → t.statusErr ≠ none →
    exec .clrerr t = .next s

/-- R117: CLRCT makes every code-table word 0 and touches nothing else; dropped while an error is latched. -/
def Obligations.ClrctClearsCodeTable : Prop :=
  decode 0x04000000 = .ok .clrct ∧ ∀ s : State,
    (s.statusErr = none → ∃ t, exec .clrct s = .next t ∧ t = { s with ct := t.ct } ∧
      (∀ y k, t.ctWord y k = 0) ∧ ∀ y, t.ctLen y = 0) ∧
    (s.statusErr ≠ none → exec .clrct s = .next s)

/-- R118: CLRTM makes every tree word 0, every node EMPTY, and touches nothing else; dropped while an error is
latched. -/
def Obligations.ClrtmClearsTreeMemory : Prop :=
  decode 0x05000000 = .ok .clrtm ∧ ∀ s : State,
    (s.statusErr = none → ∃ t, exec .clrtm s = .next t ∧ t = { s with tm := t.tm } ∧
      (∀ i, t.tmWord i = 0) ∧ ∀ i, nodeTag (t.tmWord i) = .empty) ∧
    (s.statusErr ≠ none → exec .clrtm s = .next s)

/-! ### ENCODE (spec/41_encoder.md R90 to R97) -/

/-- R92, R93: where no check fails, ENCODE stores the concatenated codes under the format, sets BLEN, and leaves
every other byte of BB and everything else as it was. -/
def Obligations.EncodePacksTheCodes : Prop :=
  ∀ s : State, s.statusErr = none → s.encodable →
    ∃ t, exec .encode s = .next t ∧ t = { s with bb := t.bb, blen := t.blen } ∧
      t.blen.toNat = (s.codesFrom 0 s.slen.toNat).length ∧
      (s.codesFrom 0 s.slen.toNat).length = s.lensFrom 0 s.slen.toNat ∧
      match s.ctrlFmt with
      | .packed =>
        (∀ k < ((s.codesFrom 0 s.slen.toNat).length + 7) / 8, (t.bbByte k).toNat =
          ∑ j ∈ Finset.range 8, (padBit (s.codesFrom 0 s.slen.toNat) (8 * k + j)).toNat * 2 ^ (7 - j)) ∧
        ∀ k ≥ ((s.codesFrom 0 s.slen.toNat).length + 7) / 8, t.bbByte k = s.bbByte k
      | .character =>
        (∀ p < (s.codesFrom 0 s.slen.toNat).length, (t.bbByte p).toNat =
          0x30 + (padBit (s.codesFrom 0 s.slen.toNat) p).toNat) ∧
        ∀ p ≥ (s.codesFrom 0 s.slen.toNat).length, t.bbByte p = s.bbByte p

/-- R95: the first check that fails ends ENCODE, with the position ERRPOS takes; no other error is ever raised. -/
def Obligations.EncodeErrorsInOrder : Prop :=
  ∀ s : State, s.statusErr = none →
    (s.params.symCap < s.slen.toNat → exec .encode s =
      .next { s with statusErr := some .overflow, errpos := BitVec.ofNat 32 s.params.symCap }) ∧
    (∀ i < s.slen.toNat, s.slen.toNat ≤ s.params.symCap → (∀ j < i, s.ctLen (s.sbByte j) ≠ 0) →
      s.lensFrom 0 i ≤ bitCap s.params s.ctrlFmt →
      (s.ctLen (s.sbByte i) = 0 → exec .encode s =
        .next { s with statusErr := some .lookupError, errpos := BitVec.ofNat 32 i }) ∧
      (s.ctLen (s.sbByte i) ≠ 0 → bitCap s.params s.ctrlFmt < s.lensFrom 0 i + s.ctLen (s.sbByte i) →
        exec .encode s = .next { s with statusErr := some .overflow, errpos := BitVec.ofNat 32 i })) ∧
    ∀ t, exec .encode s = .next t →
      t.statusErr = none ∨ t.statusErr = some .lookupError ∨ t.statusErr = some .overflow

/-- R96: lengths, where each code stands in the result, ENCODE issued twice, and on what the result depends. -/
def Obligations.EncodeGuarantees : Prop :=
  ∀ s t : State, s.statusErr = none → exec .encode s = .next t → t.statusErr = none →
    t.blen.toNat = s.lensFrom 0 s.slen.toNat ∧ (t.blen = 0 ↔ s.slen = 0) ∧
    s.slen.toNat ≤ t.blen.toNat ∧ t.blen.toNat ≤ 255 * s.slen.toNat ∧
    (∀ i < s.slen.toNat, ∀ q < s.ctLen (s.sbByte i),
      t.bitChar s.ctrlFmt (s.lensFrom 0 i + q) = BitChar.ofBool (s.codeBit (s.sbByte i) q)) ∧
    (∀ u, exec .encode t = .next u → u.statusErr = none ∧ u.blen = t.blen ∧ ∀ k, u.bbByte k = t.bbByte k) ∧
    ∀ u v, u.statusErr = none → u.params = s.params → u.ctrlFmt = s.ctrlFmt → u.slen = s.slen →
      (∀ k, u.sbByte k = s.sbByte k) → (∀ y k, u.ctWord y k = s.ctWord y k) → exec .encode u = .next v →
      v.statusErr = none ∧ v.blen = t.blen ∧ ∀ k < streamBytes t.blen.toNat s.ctrlFmt, v.bbByte k = t.bbByte k

/-- R96, R97 e, f, g: the result of ENCODE is a function of SLEN, the symbols SB[0..SLEN-1], the code bits of those
symbols and the format: nothing else it could read (BB, TM, other entries, bits beyond LEN) has an effect. -/
def Obligations.EncodeReadsOnlyItsInputs : Prop :=
  ∀ s u : State, s.statusErr = none → u.statusErr = none → u.params = s.params → u.ctrlFmt = s.ctrlFmt →
    u.slen = s.slen → (∀ i < s.slen.toNat, u.sbByte i = s.sbByte i) →
    (∀ i < s.slen.toNat, u.ctLen (s.sbByte i) = s.ctLen (s.sbByte i) ∧
      u.codeBits (s.sbByte i) = s.codeBits (s.sbByte i)) →
    ∃ t v, exec .encode s = .next t ∧ exec .encode u = .next v ∧ v.statusErr = t.statusErr ∧
      (t.statusErr ≠ none → v.errpos = t.errpos) ∧
      (t.statusErr = none → v.blen = t.blen ∧
        ∀ k < streamBytes t.blen.toNat s.ctrlFmt, v.bbByte k = t.bbByte k)

/-! ### DECODE (spec/42_decoder.md R100 to R110) -/

/-- R109 a: the empty stream is well formed, whatever the tables hold. -/
def Obligations.DecodeEmptyStream : Prop :=
  ∀ s : State, s.statusErr = none → s.blen = 0 → exec .decode s = .next { s with slen := 0 }

/-- R106 (1): a length above the capacity. -/
def Obligations.DecodeOverlongStream : Prop :=
  ∀ s : State, s.statusErr = none → bitCap s.params s.ctrlFmt < s.blen.toNat → exec .decode s =
    .next { s with statusErr := some .overflow, errpos := BitVec.ofNat 32 (bitCap s.params s.ctrlFmt) }

/-- R103: one step of the walker, and where the walk goes on after it. -/
def Obligations.WalkerStepCases : Prop :=
  ∀ (s : State) (pos : Nat) (cur : NodeIdx) (out : List Byte),
    (s.bitChar s.ctrlFmt pos = .invalid →
      walkStep s pos ⟨cur, out⟩ = .error ⟨.invalidBit, BitVec.ofNat 32 pos⟩) ∧
    (s.bitChar s.ctrlFmt pos ≠ .invalid → nodeTag (s.tmWord cur) ≠ .internal →
      walkStep s pos ⟨cur, out⟩ = .error ⟨.badTree, BitVec.ofNat 32 pos⟩) ∧
    (∀ n w, walkStep s pos ⟨cur, out⟩ = .ok w → walkFrom s (n + 1) pos ⟨cur, out⟩ = walkFrom s n (pos + 1) w) ∧
    (∀ n r, walkStep s pos ⟨cur, out⟩ = .error r → walkFrom s (n + 1) pos ⟨cur, out⟩ = .error r) ∧
    ∀ nxt, nodeTag (s.tmWord cur) = .internal →
      (s.bitChar s.ctrlFmt pos = .zero ∧ nxt = nodeLeft (s.tmWord cur) ∨
        s.bitChar s.ctrlFmt pos = .one ∧ nxt = nodeRight (s.tmWord cur)) →
      (nodeTag (s.tmWord nxt) = .internal → walkStep s pos ⟨cur, out⟩ = .ok ⟨nxt, out⟩) ∧
      (nodeTag (s.tmWord nxt) = .leaf → out.length = s.params.symCap →
        walkStep s pos ⟨cur, out⟩ = .error ⟨.overflow, BitVec.ofNat 32 pos⟩) ∧
      (nodeTag (s.tmWord nxt) = .leaf → out.length ≠ s.params.symCap →
        walkStep s pos ⟨cur, out⟩ = .ok ⟨0, out ++ [nodeSym (s.tmWord nxt)]⟩) ∧
      (nodeTag (s.tmWord nxt) = .synth →
        walkStep s pos ⟨cur, out⟩ = .error ⟨.malformedStream, BitVec.ofNat 32 pos⟩) ∧
      (nodeTag (s.tmWord nxt) = .empty →
        walkStep s pos ⟨cur, out⟩ = .error ⟨.badTree, BitVec.ofNat 32 pos⟩)

/-- R104, R105, on every tree memory: with a length that fits BB, DECODE raises what the walk from the root raises,
raises MalformedStream at BLEN where the walk ends with the cursor elsewhere than at 0, and else commits the symbols the
walk emitted; the cursor alone decides. -/
def Obligations.DecodeIsTheWalk : Prop :=
  ∀ s : State, s.statusErr = none → s.blen.toNat ≤ bitCap s.params s.ctrlFmt →
    (∀ r, walkFrom s s.blen.toNat 0 ⟨0, []⟩ = .error r →
      exec .decode s = .next { s with statusErr := some r.kind, errpos := r.pos }) ∧
    ∀ w, walkFrom s s.blen.toNat 0 ⟨0, []⟩ = .ok w →
      (w.cur ≠ 0 → exec .decode s = .next { s with statusErr := some .malformedStream, errpos := s.blen }) ∧
      (w.cur = 0 → ∃ t, exec .decode s = .next t ∧ t = { s with sb := t.sb, slen := t.slen } ∧
        t.slen.toNat = w.out.length ∧ (∀ k < w.out.length, t.sbByte k = w.out.getD k 0) ∧
        ∀ k ≥ w.out.length, t.sbByte k = s.sbByte k)

/-- R100, R103 to R105: where TM lays out a tree and the stream is the concatenation of its codes of a sequence of
symbols that fits SB, DECODE writes exactly that sequence, sets SLEN, and leaves everything else as it was. -/
def Obligations.DecodeFollowsTree : Prop :=
  ∀ (s : State) (tree : HTree) (syms : List Byte), s.statusErr = none → tree.layoutIn s →
    (∀ y ∈ syms, y ∈ tree.symbols) → syms.length ≤ s.params.symCap →
    s.blen.toNat ≤ bitCap s.params s.ctrlFmt → s.streamIs (tree.codesOf syms) →
    ∃ t, exec .decode s = .next t ∧ t = { s with sb := t.sb, slen := t.slen } ∧
      t.slen.toNat = syms.length ∧ (∀ k < syms.length, t.sbByte k = syms.getD k 0) ∧
      ∀ k ≥ syms.length, t.sbByte k = s.sbByte k

/-- R104: a stream that ends inside a code. -/
def Obligations.TruncatedStreamIsMalformed : Prop :=
  ∀ (s : State) (tree : HTree) (syms : List Byte) (y : Byte) (cut missing : List Bool),
    s.statusErr = none → tree.layoutIn s → (∀ z ∈ syms, z ∈ tree.symbols) → syms.length ≤ s.params.symCap →
    tree.codeOf y = some (cut ++ missing) → cut ≠ [] → missing ≠ [] →
    s.blen.toNat ≤ bitCap s.params s.ctrlFmt → s.streamIs (tree.codesOf syms ++ cut) →
    exec .decode s = .next { s with statusErr := some .malformedStream, errpos := s.blen }

/-- R138, R106: an invalid character inside the stream is never skipped: DECODE fails at it or before it, and InvalidBit
is reported only where the character is invalid. -/
def Obligations.InvalidCharacterNeverSkipped : Prop :=
  ∀ (s : State) (p : Nat), s.statusErr = none → s.ctrlFmt = .character → s.blen.toNat ≤ s.params.bbBytes →
    p < s.blen.toNat → s.bbByte p ≠ 0x30 → s.bbByte p ≠ 0x31 →
    ∃ t k, exec .decode s = .next t ∧ t.statusErr = some k ∧ t.errpos.toNat ≤ p ∧
      t = { s with statusErr := t.statusErr, errpos := t.errpos } ∧
      (k = .invalidBit → s.bbByte t.errpos.toNat ≠ 0x30 ∧ s.bbByte t.errpos.toNat ≠ 0x31)

/-- R109 b: the first bit cannot be consumed where TM[0] is not INTERNAL. -/
def Obligations.DecodeRootNotInternal : Prop :=
  ∀ s : State, s.statusErr = none → 1 ≤ s.blen.toNat → s.blen.toNat ≤ bitCap s.params s.ctrlFmt →
    s.bitChar s.ctrlFmt 0 ≠ .invalid → nodeTag (s.tmWord 0) ≠ .internal →
    exec .decode s = .next { s with statusErr := some .badTree, errpos := 0 }

/-- R105, R107, R108, R128: DECODE completes on every content of TM, cycles included: it fails with only STATUS and
ERRPOS written, or writes SLEN ≤ BLEN symbols, at most SYM_CAP, and nothing else. -/
def Obligations.DecodeCompletes : Prop :=
  ∀ s : State, s.statusErr = none → ∃ t, exec .decode s = .next t ∧
    ((t.statusErr ≠ none ∧ t = { s with statusErr := t.statusErr, errpos := t.errpos }) ∨
     (t.statusErr = none ∧ t = { s with sb := t.sb, slen := t.slen } ∧ t.slen.toNat ≤ s.blen.toNat ∧
       t.slen.toNat ≤ s.params.symCap ∧ ∀ k ≥ t.slen.toNat, t.sbByte k = s.sbByte k))

/-- R106: which errors DECODE raises, and where: the length first, then in stream order, every character before the
position being Zero or One, InvalidBit before the tree's errors at its position. -/
def Obligations.DecodeErrorsInOrder : Prop :=
  ∀ (s t : State) (k : ErrKind), s.statusErr = none → exec .decode s = .next t → t.statusErr = some k →
    (bitCap s.params s.ctrlFmt < s.blen.toNat ∧ k = .overflow ∧
      t.errpos.toNat = bitCap s.params s.ctrlFmt) ∨
    (s.blen.toNat ≤ bitCap s.params s.ctrlFmt ∧ t.errpos.toNat ≤ s.blen.toNat ∧
      (∀ q < t.errpos.toNat, s.bitChar s.ctrlFmt q ≠ .invalid) ∧
      ((t.errpos.toNat < s.blen.toNat ∧ k = .invalidBit ∧ s.bitChar s.ctrlFmt t.errpos.toNat = .invalid) ∨
       (t.errpos.toNat < s.blen.toNat ∧ s.bitChar s.ctrlFmt t.errpos.toNat ≠ .invalid ∧
         (k = .badTree ∨ k = .overflow ∨ k = .malformedStream)) ∨
       (t.errpos = s.blen ∧ k = .malformedStream)))

/-- R100: the result of DECODE is a function of BLEN, the bit characters, TM and the format: CT, SLEN, SB and what
lies behind the stream have no effect (R109 e, g, h). -/
def Obligations.DecodeReadsOnlyItsInputs : Prop :=
  ∀ s u : State, s.statusErr = none → u.statusErr = none → u.params = s.params → u.ctrlFmt = s.ctrlFmt →
    u.blen = s.blen → (∀ p < s.blen.toNat, u.bitChar s.ctrlFmt p = s.bitChar s.ctrlFmt p) →
    (∀ i, u.tmWord i = s.tmWord i) →
    ∃ t v, exec .decode s = .next t ∧ exec .decode u = .next v ∧ v.statusErr = t.statusErr ∧
      (t.statusErr ≠ none → v.errpos = t.errpos) ∧
      (t.statusErr = none → v.slen = t.slen ∧ ∀ k < t.slen.toNat, v.sbByte k = t.sbByte k)

/-- R110: the round trip, for every pair of consistent tables. -/
def Obligations.RoundTrip : Prop :=
  ∀ (s : State) (tree : HTree), s.statusErr = none → ConsistentWith s tree →
    s.slen.toNat ≤ s.params.symCap → (∀ i < s.slen.toNat, s.sbByte i ∈ tree.symbols) →
    s.lensFrom 0 s.slen.toNat ≤ bitCap s.params s.ctrlFmt →
    ∃ t u, exec .encode s = .next t ∧ t.statusErr = none ∧ exec .decode t = .next u ∧ u.statusErr = none ∧
      u.slen = s.slen ∧ ∀ k, u.sbByte k = s.sbByte k

/-! ### Data formats (spec/30_encoding.md R54, R55, R58, R59) -/

/-- R58, R59: what the packer stores, BitChar reads back, under both formats; the packed format has no invalid
character, and a byte of the character format is invalid exactly when it is neither 0x30 nor 0x31. -/
def Obligations.PackedBitsReadBack : Prop :=
  (∀ (s : State) (bits : List Bool) (f : Format) (p : Nat), p < bits.length →
    (s.putBb 0 (packedBytes bits f)).bitChar f p = BitChar.ofBool (padBit bits p)) ∧
  (∀ (s : State) (p : Nat), s.bitChar .packed p ≠ .invalid) ∧
  ∀ (s : State) (p : Nat), s.bitChar .character p = .invalid ↔ s.bbByte p ≠ 0x30 ∧ s.bbByte p ≠ 0x31

/-- R55: the fields of a tree word, which the stored mask keeps. -/
def Obligations.TreeWordFields : Prop :=
  (∀ l r : NodeIdx, nodeTag (internalWord l r) = .internal ∧ nodeLeft (internalWord l r) = l ∧
    nodeRight (internalWord l r) = r) ∧
  (∀ y : Byte, nodeTag (leafWord y) = .leaf ∧ nodeSym (leafWord y) = y) ∧
  nodeTag synthWord = .synth ∧ nodeTag 0 = .empty ∧
  ∀ w : Word, nodeTag (w &&& 0xC1FF01FF) = nodeTag w ∧ nodeLeft (w &&& 0xC1FF01FF) = nodeLeft w ∧
    nodeRight (w &&& 0xC1FF01FF) = nodeRight w ∧ nodeSym (w &&& 0xC1FF01FF) = nodeSym w

/-- R54, R83: the nine words of a code's entry read back as the code, for every code of 1 to 255 bits. -/
def Obligations.CodeEntryReadsBack : Prop :=
  ∀ (s : State) (y : Byte) (code : List Bool), 1 ≤ code.length → code.length ≤ 255 →
    (∀ k ≤ 8, s.ctWord y k = (ctEntry code).getD k 0) → s.ctLen y = code.length ∧ s.codeBits y = code

/-! ### Host preparation (spec/40_host_preparation.md R71 to R87) -/

/-- R71: each slot counts its symbol, and the entries sum to the length of the data. -/
def Obligations.FrequencyCountSums : Prop :=
  (∀ (data : List Byte) (y : Byte),
    frequencyCount data y = (Finset.univ.filter fun k : Fin data.length => data[k] = y).card) ∧
  (∀ data : List Byte, (allSymbols.map (frequencyCount data)).sum = data.length) ∧
  ∀ y, frequencyCount [] y = 0

/-- R73: BuildTree fails with InvalidInput exactly on the all-zero table. -/
def Obligations.BuildTreeRejectsEmpty : Prop :=
  ∀ F : FreqTable, buildTree F = .error .invalidInput ↔ ∀ y, F y = 0

/-- R77: the invariants of a built tree. -/
def Obligations.BuiltTreeInvariants : Prop :=
  ∀ (F : FreqTable) (tree : HTree) (k : Nat), buildTree F = .ok tree →
    k = (allSymbols.filter fun y => F y != 0).length →
    tree.isNode = true ∧ tree.symbols.Nodup ∧ (∀ y, y ∈ tree.symbols ↔ F y ≠ 0) ∧ tree.sumsUp = true ∧
    tree.leaves = max k 2 ∧ tree.size = 2 * max k 2 - 1 ∧ tree.depth ≤ max k 2 - 1 ∧ max k 2 - 1 ≤ 255 ∧
    tree.freq = (allSymbols.map F).sum + if k = 1 then 1 else 0

/-- R80: the codes of a tree with a Node root are prefix-free; every code has from 1 to as many bits as the tree is
deep, so at most 255 in a tree that BuildTree built. -/
def Obligations.CodesArePrefixFree : Prop :=
  ∀ tree : HTree, tree.isNode = true →
    (∀ (y z : Byte) (c d : List Bool), y ≠ z → tree.codeOf y = some c → tree.codeOf z = some d →
      ¬ c <+: d ∧ ¬ d <+: c) ∧
    ∀ (y : Byte) (c : List Bool), tree.codeOf y = some c →
      1 ≤ c.length ∧ c.length ≤ tree.depth ∧ ∀ F, buildTree F = .ok tree → c.length ≤ 255

/-- R82, R83, R87: the images of a tree and of its code table are consistent. -/
def Obligations.ImagesAreConsistent : Prop :=
  ∀ (s : State) (tree : HTree) (c : CodeMap), tree.symbols.Nodup → tree.size ≤ 511 → tree.depth ≤ 255 →
    codeTable tree = some c → (∀ i < 512, s.tmWord (BitVec.ofNat 9 i) = (tmImage tree).getD i 0) →
    (∀ y k, k ≤ 8 → s.ctWord y k = (ctImage c y).getD k 0) → ConsistentWith s tree

/-- R84: empty data is rejected before the block is touched. -/
def Obligations.CompressRejectsEmpty : Prop :=
  ∀ (fmt : Format) (s : State), compress [] fmt s = .next (s, .error .invalidInput)

/-- A host program that draws a BusError is faulted: a run with such an answer makes `runProgram` end in the fault of an
operation of it, any other run gives its state and values; so decompress of more bytes than BB has, and compress of more
data than SB has, end in the fault. That they end there is the model's choice after R136 (log 4). With SYM_CAP = 65536
the offset behind SB is BB's, and no BusError need arise (log 14). -/
def Obligations.HostProgramsFaultOnBusError : Prop :=
  (∀ (ops : List HostOp) (s t : State) (replies : List Reply), runOps ops s = .next (t, replies) →
    (faultedRun replies = false → runProgram ops s = .next (t, readValues replies)) ∧
    (faultedRun replies = true → ∃ op ∈ ops, runProgram ops s = .fault (.busError op))) ∧
  (∀ (r : EncodedResult) (s : State), s.params.bbBytes < r.bytes.length →
    ∃ op, decompress r s = .fault (.busError op)) ∧
  ∀ (data : List Byte) (fmt : Format) (s : State), s.params.symCap < data.length → s.params.symCap < 65536 →
    ∃ op, compress data fmt s = .fault (.busError op)

/-- R86, R84, R85: for all non-empty data that fits SB and whose stream fits BB, compress succeeds, and decompress of
its result, on this or any other block of the same parameters with no error latched, gives the data back. -/
def Obligations.CompressThenDecompress : Prop :=
  ∀ (s u : State) (data : List Byte) (fmt : Format) (tree : HTree),
    s.statusErr = none → u.statusErr = none → u.params = s.params → data ≠ [] →
    data.length ≤ s.params.symCap → buildTree (frequencyCount data) = .ok tree →
    (tree.codesOf data).length ≤ bitCap s.params fmt →
    ∃ t r v, compress data fmt s = .next (t, .ok r) ∧ r.n = (tree.codesOf data).length ∧
      decompress r u = .next (v, .ok data)
end

