-- ==== Sys2Proof/Laws/Memory.lean ====
section
/-!
SUPPORT. The laws of the sparse memory: a read after a write, the canonical form kept by every write, and memories in
canonical form that read the same are the same list.
-/

namespace Sys2Proof.Machine

variable {w : Nat}

@[simp] theorem Memory.read_nil (a : Nat) : Memory.read ([] : Memory w) a = 0 := rfl

theorem Memory.read_cons (c : Nat × BitVec w) (m : Memory w) (a : Nat) :
    Memory.read (c :: m) a = if c.1 = a then c.2 else Memory.read m a := rfl

theorem Memory.read_unlist (m : Memory w) (a b : Nat) :
    Memory.read (Memory.unlist a m) b = if b = a then 0 else Memory.read m b := by
  induction m with
  | nil => simp [Memory.unlist]
  | cons c m ih =>
    unfold Memory.unlist at ih ⊢
    by_cases hc : c.1 = a
    · rw [List.filter_cons_of_neg (by simp [hc]), ih, Memory.read_cons]
      split
      · simp_all
      · simp_all; omega
    · rw [List.filter_cons_of_pos (by simp [hc]), Memory.read_cons, ih, Memory.read_cons]
      split <;> simp_all

theorem Memory.mem_unlist {m : Memory w} {a : Nat} {c : Nat × BitVec w} :
    c ∈ Memory.unlist a m ↔ c ∈ m ∧ c.1 ≠ a := by
  simp [Memory.unlist, List.mem_filter]

theorem Memory.read_enlist {m : Memory w} {a : Nat} (v : BitVec w) (h : ∀ c ∈ m, c.1 ≠ a) (b : Nat) :
    Memory.read (Memory.enlist a v m) b = if b = a then v else Memory.read m b := by
  induction m with
  | nil => simp [Memory.enlist, Memory.read_cons, eq_comm]
  | cons c m ih =>
    have hc : c.1 ≠ a := h c (by simp)
    rw [Memory.enlist]
    split
    · simp [Memory.read_cons, eq_comm]
    · rw [Memory.read_cons, ih fun d hd => h d (by simp [hd]), Memory.read_cons]
      split <;> simp_all

theorem Memory.mem_enlist {m : Memory w} {a : Nat} {v : BitVec w} {c : Nat × BitVec w} :
    c ∈ Memory.enlist a v m ↔ c = (a, v) ∨ c ∈ m := by
  induction m with
  | nil => simp [Memory.enlist]
  | cons d m ih =>
    rw [Memory.enlist]
    split
    · simp
    · simp [ih]; tauto

/-- One write: the written cell reads the value, every other cell reads as before. -/
theorem Memory.read_write (m : Memory w) (a : Nat) (v : BitVec w) (b : Nat) :
    Memory.read (Memory.write m a v) b = if b = a then v else Memory.read m b := by
  unfold Memory.write
  split
  · subst v; rw [Memory.read_unlist]
  · rw [Memory.read_enlist v (fun c hc => (Memory.mem_unlist.1 hc).2), Memory.read_unlist]
    split <;> simp_all

@[simp] theorem Memory.read_write_same (m : Memory w) (a : Nat) (v : BitVec w) :
    Memory.read (Memory.write m a v) a = v := by simp [Memory.read_write]

theorem Memory.read_write_other (m : Memory w) {a b : Nat} (v : BitVec w) (h : b ≠ a) :
    Memory.read (Memory.write m a v) b = Memory.read m b := by simp [Memory.read_write, h]

theorem Memory.wf_nil : Memory.wf ([] : Memory w) := by simp [Memory.wf]

theorem Memory.wf_unlist {m : Memory w} (a : Nat) (h : Memory.wf m) : Memory.wf (Memory.unlist a m) :=
  ⟨h.1.sublist List.filter_sublist, fun c hc => h.2 c (Memory.mem_unlist.1 hc).1⟩

theorem Memory.wf_enlist {m : Memory w} {a : Nat} {v : BitVec w} (hv : v ≠ 0) (h : Memory.wf m)
    (ha : ∀ c ∈ m, c.1 ≠ a) : Memory.wf (Memory.enlist a v m) := by
  refine ⟨?_, fun c hc => ?_⟩
  · have hs := h.1
    clear h
    induction m with
    | nil => simp [Memory.enlist]
    | cons d m ih =>
      rw [List.pairwise_cons] at hs
      have hd : d.1 ≠ a := ha d (by simp)
      rw [Memory.enlist]
      split
      · rename_i hlt
        refine List.pairwise_cons.2 ⟨fun e he => ?_, List.pairwise_cons.2 hs⟩
        rcases List.mem_cons.1 he with rfl | he
        · exact hlt
        · exact lt_trans hlt (hs.1 e he)
      · refine List.pairwise_cons.2 ⟨fun e he => ?_, ih (fun c hc => ha c (by simp [hc])) hs.2⟩
        rcases Memory.mem_enlist.1 he with rfl | he
        · change d.1 < a; omega
        · exact hs.1 e he
  · rcases Memory.mem_enlist.1 hc with rfl | hc
    · exact hv
    · exact h.2 c hc

/-- A write keeps the canonical form. -/
theorem Memory.wf_write {m : Memory w} (a : Nat) (v : BitVec w) (h : Memory.wf m) :
    Memory.wf (Memory.write m a v) := by
  unfold Memory.write
  split
  · exact Memory.wf_unlist a h
  · rename_i hv
    exact Memory.wf_enlist hv (Memory.wf_unlist a h) fun c hc => (Memory.mem_unlist.1 hc).2

/-- What a write can list: the written cell, unless it is 0, and what was listed before. -/
theorem Memory.mem_write {m : Memory w} {a : Nat} {v : BitVec w} {c : Nat × BitVec w}
    (h : c ∈ Memory.write m a v) : c = (a, v) ∨ c ∈ m := by
  unfold Memory.write at h
  split at h
  · exact .inr (Memory.mem_unlist.1 h).1
  · rcases Memory.mem_enlist.1 h with h | h
    · exact .inl h
    · exact .inr (Memory.mem_unlist.1 h).1

@[simp] theorem Memory.writeAll_nil (m : Memory w) (a : Nat) : Memory.writeAll m a [] = m := rfl

@[simp] theorem Memory.writeAll_cons (m : Memory w) (a : Nat) (v : BitVec w) (vs : List (BitVec w)) :
    Memory.writeAll m a (v :: vs) = Memory.writeAll (Memory.write m a v) (a + 1) vs := rfl

theorem Memory.read_writeAll (m : Memory w) (a : Nat) (vs : List (BitVec w)) (b : Nat) :
    Memory.read (Memory.writeAll m a vs) b =
      if a ≤ b ∧ b < a + vs.length then vs.getD (b - a) 0 else Memory.read m b := by
  induction vs generalizing m a with
  | nil => simp
  | cons v vs ih =>
    rw [Memory.writeAll_cons, ih, Memory.read_write]
    rcases Nat.lt_trichotomy b a with h | h | h
    · have h1 : ¬(a + 1 ≤ b ∧ b < a + 1 + vs.length) := by omega
      have h2 : ¬(a ≤ b ∧ b < a + (v :: vs).length) := by omega
      have h3 : b ≠ a := by omega
      simp only [h1, h2, h3, if_false]
    · subst h
      have h1 : ¬(b + 1 ≤ b ∧ b < b + 1 + vs.length) := by omega
      simp
    · obtain ⟨d, rfl⟩ : ∃ d, b = a + (d + 1) := ⟨b - a - 1, by omega⟩
      have h3 : a + (d + 1) ≠ a := by omega
      have e1 : a + (d + 1) - (a + 1) = d := by omega
      have e2 : a + (d + 1) - a = d + 1 := by omega
      simp only [h3, if_false, e1, e2, List.getD_cons_succ]
      have : (a + 1 ≤ a + (d + 1) ∧ a + (d + 1) < a + 1 + vs.length) ↔
          (a ≤ a + (d + 1) ∧ a + (d + 1) < a + (v :: vs).length) := by
        simp only [List.length_cons]; omega
      simp only [this]

/-- Inside the written stretch a cell reads the value written there. -/
theorem Memory.read_writeAll_inside (m : Memory w) (a : Nat) (vs : List (BitVec w)) {d : Nat}
    (h : d < vs.length) : Memory.read (Memory.writeAll m a vs) (a + d) = vs[d] := by
  rw [Memory.read_writeAll, if_pos ⟨by omega, by omega⟩]
  simp [h]

/-- Outside the written stretch a cell reads as before. -/
theorem Memory.read_writeAll_outside (m : Memory w) (a : Nat) (vs : List (BitVec w)) {b : Nat}
    (h : b < a ∨ a + vs.length ≤ b) : Memory.read (Memory.writeAll m a vs) b = Memory.read m b := by
  rw [Memory.read_writeAll, if_neg (by omega)]

theorem Memory.wf_writeAll {m : Memory w} (a : Nat) (vs : List (BitVec w)) (h : Memory.wf m) :
    Memory.wf (Memory.writeAll m a vs) := by
  induction vs generalizing m a with
  | nil => exact h
  | cons v vs ih => exact ih (a + 1) (Memory.wf_write a v h)

/-- What a run of writes can list: cells of the written stretch, and what was listed before. -/
theorem Memory.mem_writeAll {m : Memory w} {a : Nat} {vs : List (BitVec w)} {c : Nat × BitVec w}
    (h : c ∈ Memory.writeAll m a vs) : (a ≤ c.1 ∧ c.1 < a + vs.length) ∨ c ∈ m := by
  induction vs generalizing m a with
  | nil => exact .inr h
  | cons v vs ih =>
    rcases ih h with h | h
    · left; simp only [List.length_cons]; omega
    · rcases Memory.mem_write h with rfl | h
      · left; simp
      · exact .inr h

theorem Memory.read_of_mem {m : Memory w} (h : m.Pairwise fun c d => c.1 < d.1) {c : Nat × BitVec w}
    (hc : c ∈ m) : Memory.read m c.1 = c.2 := by
  induction m with
  | nil => cases hc
  | cons d m ih =>
    rw [List.pairwise_cons] at h
    rw [Memory.read_cons]
    rcases List.mem_cons.1 hc with rfl | hc
    · simp
    · have := h.1 c hc
      rw [if_neg (by omega), ih h.2 hc]

theorem Memory.read_eq_zero_of_lt {m : Memory w} {a : Nat} (h : ∀ c ∈ m, a < c.1) : Memory.read m a = 0 := by
  induction m with
  | nil => rfl
  | cons c m ih =>
    have := h c (by simp)
    rw [Memory.read_cons, if_neg (by omega), ih fun d hd => h d (by simp [hd])]

/-- Memories in canonical form that read the same everywhere are the same list. -/
theorem Memory.ext {m n : Memory w} (hm : Memory.wf m) (hn : Memory.wf n)
    (h : ∀ a, Memory.read m a = Memory.read n a) : m = n := by
  induction m generalizing n with
  | nil =>
    cases n with
    | nil => rfl
    | cons d n =>
      have := h d.1
      rw [Memory.read_of_mem hn.1 (by simp)] at this
      exact absurd this.symm (hn.2 d (by simp))
  | cons c m ih =>
    cases n with
    | nil =>
      have := h c.1
      rw [Memory.read_of_mem hm.1 (by simp)] at this
      exact absurd this (hm.2 c (by simp))
    | cons d n =>
      have hm1 := List.pairwise_cons.1 hm.1
      have hn1 := List.pairwise_cons.1 hn.1
      have key : c.1 = d.1 := by
        rcases Nat.lt_trichotomy c.1 d.1 with hlt | heq | hgt
        · have hc := h c.1
          rw [Memory.read_of_mem hm.1 (by simp), Memory.read_eq_zero_of_lt (m := d :: n)] at hc
          · exact absurd hc (hm.2 c (by simp))
          · intro e he
            rcases List.mem_cons.1 he with rfl | he
            · exact hlt
            · exact lt_trans hlt (hn1.1 e he)
        · exact heq
        · have hd := h d.1
          rw [Memory.read_of_mem hn.1 (by simp), Memory.read_eq_zero_of_lt (m := c :: m)] at hd
          · exact absurd hd.symm (hn.2 d (by simp))
          · intro e he
            rcases List.mem_cons.1 he with rfl | he
            · exact hgt
            · exact lt_trans hgt (hm1.1 e he)
      have val : c.2 = d.2 := by
        have := h c.1
        rwa [Memory.read_of_mem hm.1 (by simp), key, Memory.read_of_mem hn.1 (by simp)] at this
      have hcd : c = d := Prod.ext key val
      subst hcd
      congr 1
      refine ih ⟨hm1.2, fun e he => hm.2 e (by simp [he])⟩ ⟨hn1.2, fun e he => hn.2 e (by simp [he])⟩
        fun a => ?_
      by_cases ha : a = c.1
      · subst ha
        rw [Memory.read_eq_zero_of_lt hm1.1, Memory.read_eq_zero_of_lt hn1.1]
      · have := h a
        rwa [Memory.read_cons, Memory.read_cons, if_neg (by omega), if_neg (by omega)] at this

end Sys2Proof.Machine
end

