-- ==== Sys2Proof/Laws/State.lean ====
section
/-!
SUPPORT. One lemma per field per update of State, so that no later proof unfolds a record update.
-/

namespace Sys2Proof.Machine

/-! ### raise -/

@[simp] theorem State.raise_ctrlFmt (s : State) (k : ErrKind) (p : Word) : (s.raise k p).ctrlFmt = s.ctrlFmt := rfl
@[simp] theorem State.raise_statusErr (s : State) (k : ErrKind) (p : Word) : (s.raise k p).statusErr = some k := rfl
@[simp] theorem State.raise_errpos (s : State) (k : ErrKind) (p : Word) : (s.raise k p).errpos = p := rfl
@[simp] theorem State.raise_slen (s : State) (k : ErrKind) (p : Word) : (s.raise k p).slen = s.slen := rfl
@[simp] theorem State.raise_blen (s : State) (k : ErrKind) (p : Word) : (s.raise k p).blen = s.blen := rfl
@[simp] theorem State.raise_ct (s : State) (k : ErrKind) (p : Word) : (s.raise k p).ct = s.ct := rfl
@[simp] theorem State.raise_tm (s : State) (k : ErrKind) (p : Word) : (s.raise k p).tm = s.tm := rfl
@[simp] theorem State.raise_sb (s : State) (k : ErrKind) (p : Word) : (s.raise k p).sb = s.sb := rfl
@[simp] theorem State.raise_bb (s : State) (k : ErrKind) (p : Word) : (s.raise k p).bb = s.bb := rfl
@[simp] theorem State.raise_params (s : State) (k : ErrKind) (p : Word) : (s.raise k p).params = s.params := rfl
@[simp] theorem State.raise_pending (s : State) (k : ErrKind) (p : Word) : (s.raise k p).pending = s.pending := rfl
@[simp] theorem State.raise_reads (s : State) (k : ErrKind) (p : Word) : (s.raise k p).reads = s.reads := rfl

/-! ### clearErr -/

@[simp] theorem State.clearErr_ctrlFmt (s : State) : s.clearErr.ctrlFmt = s.ctrlFmt := rfl
@[simp] theorem State.clearErr_statusErr (s : State) : s.clearErr.statusErr = none := rfl
@[simp] theorem State.clearErr_errpos (s : State) : s.clearErr.errpos = 0 := rfl
@[simp] theorem State.clearErr_slen (s : State) : s.clearErr.slen = s.slen := rfl
@[simp] theorem State.clearErr_blen (s : State) : s.clearErr.blen = s.blen := rfl
@[simp] theorem State.clearErr_ct (s : State) : s.clearErr.ct = s.ct := rfl
@[simp] theorem State.clearErr_tm (s : State) : s.clearErr.tm = s.tm := rfl
@[simp] theorem State.clearErr_sb (s : State) : s.clearErr.sb = s.sb := rfl
@[simp] theorem State.clearErr_bb (s : State) : s.clearErr.bb = s.bb := rfl
@[simp] theorem State.clearErr_params (s : State) : s.clearErr.params = s.params := rfl
@[simp] theorem State.clearErr_pending (s : State) : s.clearErr.pending = s.pending := rfl
@[simp] theorem State.clearErr_reads (s : State) : s.clearErr.reads = s.reads := rfl

/-! ### setTmWord -/

@[simp] theorem State.setTmWord_ctrlFmt (s : State) (i : NodeIdx) (v : Word) : (s.setTmWord i v).ctrlFmt = s.ctrlFmt := rfl
@[simp] theorem State.setTmWord_statusErr (s : State) (i : NodeIdx) (v : Word) : (s.setTmWord i v).statusErr = s.statusErr := rfl
@[simp] theorem State.setTmWord_errpos (s : State) (i : NodeIdx) (v : Word) : (s.setTmWord i v).errpos = s.errpos := rfl
@[simp] theorem State.setTmWord_slen (s : State) (i : NodeIdx) (v : Word) : (s.setTmWord i v).slen = s.slen := rfl
@[simp] theorem State.setTmWord_blen (s : State) (i : NodeIdx) (v : Word) : (s.setTmWord i v).blen = s.blen := rfl
@[simp] theorem State.setTmWord_ct (s : State) (i : NodeIdx) (v : Word) : (s.setTmWord i v).ct = s.ct := rfl
@[simp] theorem State.setTmWord_tm (s : State) (i : NodeIdx) (v : Word) : (s.setTmWord i v).tm = Memory.write s.tm i.toNat (v &&& tmMask) := rfl
@[simp] theorem State.setTmWord_sb (s : State) (i : NodeIdx) (v : Word) : (s.setTmWord i v).sb = s.sb := rfl
@[simp] theorem State.setTmWord_bb (s : State) (i : NodeIdx) (v : Word) : (s.setTmWord i v).bb = s.bb := rfl
@[simp] theorem State.setTmWord_params (s : State) (i : NodeIdx) (v : Word) : (s.setTmWord i v).params = s.params := rfl
@[simp] theorem State.setTmWord_pending (s : State) (i : NodeIdx) (v : Word) : (s.setTmWord i v).pending = s.pending := rfl
@[simp] theorem State.setTmWord_reads (s : State) (i : NodeIdx) (v : Word) : (s.setTmWord i v).reads = s.reads := rfl

/-! ### setCtWord -/

@[simp] theorem State.setCtWord_ctrlFmt (s : State) (y : Byte) (k : Nat) (v : Word) : (s.setCtWord y k v).ctrlFmt = s.ctrlFmt := rfl
@[simp] theorem State.setCtWord_statusErr (s : State) (y : Byte) (k : Nat) (v : Word) : (s.setCtWord y k v).statusErr = s.statusErr := rfl
@[simp] theorem State.setCtWord_errpos (s : State) (y : Byte) (k : Nat) (v : Word) : (s.setCtWord y k v).errpos = s.errpos := rfl
@[simp] theorem State.setCtWord_slen (s : State) (y : Byte) (k : Nat) (v : Word) : (s.setCtWord y k v).slen = s.slen := rfl
@[simp] theorem State.setCtWord_blen (s : State) (y : Byte) (k : Nat) (v : Word) : (s.setCtWord y k v).blen = s.blen := rfl
@[simp] theorem State.setCtWord_ct (s : State) (y : Byte) (k : Nat) (v : Word) : (s.setCtWord y k v).ct = Memory.write s.ct (ctAddr y k) (v &&& ctMask k) := rfl
@[simp] theorem State.setCtWord_tm (s : State) (y : Byte) (k : Nat) (v : Word) : (s.setCtWord y k v).tm = s.tm := rfl
@[simp] theorem State.setCtWord_sb (s : State) (y : Byte) (k : Nat) (v : Word) : (s.setCtWord y k v).sb = s.sb := rfl
@[simp] theorem State.setCtWord_bb (s : State) (y : Byte) (k : Nat) (v : Word) : (s.setCtWord y k v).bb = s.bb := rfl
@[simp] theorem State.setCtWord_params (s : State) (y : Byte) (k : Nat) (v : Word) : (s.setCtWord y k v).params = s.params := rfl
@[simp] theorem State.setCtWord_pending (s : State) (y : Byte) (k : Nat) (v : Word) : (s.setCtWord y k v).pending = s.pending := rfl
@[simp] theorem State.setCtWord_reads (s : State) (y : Byte) (k : Nat) (v : Word) : (s.setCtWord y k v).reads = s.reads := rfl

/-! ### putSb -/

@[simp] theorem State.putSb_ctrlFmt (s : State) (k : Nat) (l : List Byte) : (s.putSb k l).ctrlFmt = s.ctrlFmt := rfl
@[simp] theorem State.putSb_statusErr (s : State) (k : Nat) (l : List Byte) : (s.putSb k l).statusErr = s.statusErr := rfl
@[simp] theorem State.putSb_errpos (s : State) (k : Nat) (l : List Byte) : (s.putSb k l).errpos = s.errpos := rfl
@[simp] theorem State.putSb_slen (s : State) (k : Nat) (l : List Byte) : (s.putSb k l).slen = s.slen := rfl
@[simp] theorem State.putSb_blen (s : State) (k : Nat) (l : List Byte) : (s.putSb k l).blen = s.blen := rfl
@[simp] theorem State.putSb_ct (s : State) (k : Nat) (l : List Byte) : (s.putSb k l).ct = s.ct := rfl
@[simp] theorem State.putSb_tm (s : State) (k : Nat) (l : List Byte) : (s.putSb k l).tm = s.tm := rfl
@[simp] theorem State.putSb_sb (s : State) (k : Nat) (l : List Byte) : (s.putSb k l).sb = Memory.writeAll s.sb k l := rfl
@[simp] theorem State.putSb_bb (s : State) (k : Nat) (l : List Byte) : (s.putSb k l).bb = s.bb := rfl
@[simp] theorem State.putSb_params (s : State) (k : Nat) (l : List Byte) : (s.putSb k l).params = s.params := rfl
@[simp] theorem State.putSb_pending (s : State) (k : Nat) (l : List Byte) : (s.putSb k l).pending = s.pending := rfl
@[simp] theorem State.putSb_reads (s : State) (k : Nat) (l : List Byte) : (s.putSb k l).reads = s.reads := rfl

/-! ### putBb -/

@[simp] theorem State.putBb_ctrlFmt (s : State) (k : Nat) (l : List Byte) : (s.putBb k l).ctrlFmt = s.ctrlFmt := rfl
@[simp] theorem State.putBb_statusErr (s : State) (k : Nat) (l : List Byte) : (s.putBb k l).statusErr = s.statusErr := rfl
@[simp] theorem State.putBb_errpos (s : State) (k : Nat) (l : List Byte) : (s.putBb k l).errpos = s.errpos := rfl
@[simp] theorem State.putBb_slen (s : State) (k : Nat) (l : List Byte) : (s.putBb k l).slen = s.slen := rfl
@[simp] theorem State.putBb_blen (s : State) (k : Nat) (l : List Byte) : (s.putBb k l).blen = s.blen := rfl
@[simp] theorem State.putBb_ct (s : State) (k : Nat) (l : List Byte) : (s.putBb k l).ct = s.ct := rfl
@[simp] theorem State.putBb_tm (s : State) (k : Nat) (l : List Byte) : (s.putBb k l).tm = s.tm := rfl
@[simp] theorem State.putBb_sb (s : State) (k : Nat) (l : List Byte) : (s.putBb k l).sb = s.sb := rfl
@[simp] theorem State.putBb_bb (s : State) (k : Nat) (l : List Byte) : (s.putBb k l).bb = Memory.writeAll s.bb k l := rfl
@[simp] theorem State.putBb_params (s : State) (k : Nat) (l : List Byte) : (s.putBb k l).params = s.params := rfl
@[simp] theorem State.putBb_pending (s : State) (k : Nat) (l : List Byte) : (s.putBb k l).pending = s.pending := rfl
@[simp] theorem State.putBb_reads (s : State) (k : Nat) (l : List Byte) : (s.putBb k l).reads = s.reads := rfl

/-! ### resetBlock -/

@[simp] theorem State.resetBlock_ctrlFmt (s : State) : s.resetBlock.ctrlFmt = .packed := rfl
@[simp] theorem State.resetBlock_statusErr (s : State) : s.resetBlock.statusErr = none := rfl
@[simp] theorem State.resetBlock_errpos (s : State) : s.resetBlock.errpos = 0 := rfl
@[simp] theorem State.resetBlock_slen (s : State) : s.resetBlock.slen = 0 := rfl
@[simp] theorem State.resetBlock_blen (s : State) : s.resetBlock.blen = 0 := rfl
@[simp] theorem State.resetBlock_ct (s : State) : s.resetBlock.ct = [] := rfl
@[simp] theorem State.resetBlock_tm (s : State) : s.resetBlock.tm = [] := rfl
@[simp] theorem State.resetBlock_sb (s : State) : s.resetBlock.sb = [] := rfl
@[simp] theorem State.resetBlock_bb (s : State) : s.resetBlock.bb = [] := rfl
@[simp] theorem State.resetBlock_params (s : State) : s.resetBlock.params = s.params := rfl
@[simp] theorem State.resetBlock_pending (s : State) : s.resetBlock.pending = s.pending := rfl
@[simp] theorem State.resetBlock_reads (s : State) : s.resetBlock.reads = s.reads := rfl

/-! ### commitEncode -/

@[simp] theorem commitEncode_ctrlFmt (s : State) (l : List Bool) : (commitEncode s l).ctrlFmt = s.ctrlFmt := rfl
@[simp] theorem commitEncode_statusErr (s : State) (l : List Bool) : (commitEncode s l).statusErr = s.statusErr := rfl
@[simp] theorem commitEncode_errpos (s : State) (l : List Bool) : (commitEncode s l).errpos = s.errpos := rfl
@[simp] theorem commitEncode_slen (s : State) (l : List Bool) : (commitEncode s l).slen = s.slen := rfl
@[simp] theorem commitEncode_blen (s : State) (l : List Bool) : (commitEncode s l).blen = BitVec.ofNat 32 l.length := rfl
@[simp] theorem commitEncode_ct (s : State) (l : List Bool) : (commitEncode s l).ct = s.ct := rfl
@[simp] theorem commitEncode_tm (s : State) (l : List Bool) : (commitEncode s l).tm = s.tm := rfl
@[simp] theorem commitEncode_sb (s : State) (l : List Bool) : (commitEncode s l).sb = s.sb := rfl
@[simp] theorem commitEncode_bb (s : State) (l : List Bool) : (commitEncode s l).bb = Memory.writeAll s.bb 0 (packedBytes l s.ctrlFmt) := rfl
@[simp] theorem commitEncode_params (s : State) (l : List Bool) : (commitEncode s l).params = s.params := rfl
@[simp] theorem commitEncode_pending (s : State) (l : List Bool) : (commitEncode s l).pending = s.pending := rfl
@[simp] theorem commitEncode_reads (s : State) (l : List Bool) : (commitEncode s l).reads = s.reads := rfl

/-! ### commitDecode -/

@[simp] theorem commitDecode_ctrlFmt (s : State) (l : List Byte) : (commitDecode s l).ctrlFmt = s.ctrlFmt := rfl
@[simp] theorem commitDecode_statusErr (s : State) (l : List Byte) : (commitDecode s l).statusErr = s.statusErr := rfl
@[simp] theorem commitDecode_errpos (s : State) (l : List Byte) : (commitDecode s l).errpos = s.errpos := rfl
@[simp] theorem commitDecode_slen (s : State) (l : List Byte) : (commitDecode s l).slen = BitVec.ofNat 32 l.length := rfl
@[simp] theorem commitDecode_blen (s : State) (l : List Byte) : (commitDecode s l).blen = s.blen := rfl
@[simp] theorem commitDecode_ct (s : State) (l : List Byte) : (commitDecode s l).ct = s.ct := rfl
@[simp] theorem commitDecode_tm (s : State) (l : List Byte) : (commitDecode s l).tm = s.tm := rfl
@[simp] theorem commitDecode_sb (s : State) (l : List Byte) : (commitDecode s l).sb = Memory.writeAll s.sb 0 l := rfl
@[simp] theorem commitDecode_bb (s : State) (l : List Byte) : (commitDecode s l).bb = s.bb := rfl
@[simp] theorem commitDecode_params (s : State) (l : List Byte) : (commitDecode s l).params = s.params := rfl
@[simp] theorem commitDecode_pending (s : State) (l : List Byte) : (commitDecode s l).pending = s.pending := rfl
@[simp] theorem commitDecode_reads (s : State) (l : List Byte) : (commitDecode s l).reads = s.reads := rfl

/-! ### withOp -/

@[simp] theorem State.withOp_ctrlFmt (s : State) (o : HostOp) : (s.withOp o).ctrlFmt = s.ctrlFmt := rfl
@[simp] theorem State.withOp_statusErr (s : State) (o : HostOp) : (s.withOp o).statusErr = s.statusErr := rfl
@[simp] theorem State.withOp_errpos (s : State) (o : HostOp) : (s.withOp o).errpos = s.errpos := rfl
@[simp] theorem State.withOp_slen (s : State) (o : HostOp) : (s.withOp o).slen = s.slen := rfl
@[simp] theorem State.withOp_blen (s : State) (o : HostOp) : (s.withOp o).blen = s.blen := rfl
@[simp] theorem State.withOp_ct (s : State) (o : HostOp) : (s.withOp o).ct = s.ct := rfl
@[simp] theorem State.withOp_tm (s : State) (o : HostOp) : (s.withOp o).tm = s.tm := rfl
@[simp] theorem State.withOp_sb (s : State) (o : HostOp) : (s.withOp o).sb = s.sb := rfl
@[simp] theorem State.withOp_bb (s : State) (o : HostOp) : (s.withOp o).bb = s.bb := rfl
@[simp] theorem State.withOp_params (s : State) (o : HostOp) : (s.withOp o).params = s.params := rfl
@[simp] theorem State.withOp_pending (s : State) (o : HostOp) : (s.withOp o).pending = o :: s.pending := rfl
@[simp] theorem State.withOp_reads (s : State) (o : HostOp) : (s.withOp o).reads = s.reads := rfl

/-! ### resetFor -/

@[simp] theorem State.resetFor_ctrlFmt (p : Params) : (State.resetFor p).ctrlFmt = .packed := rfl
@[simp] theorem State.resetFor_statusErr (p : Params) : (State.resetFor p).statusErr = none := rfl
@[simp] theorem State.resetFor_errpos (p : Params) : (State.resetFor p).errpos = 0 := rfl
@[simp] theorem State.resetFor_slen (p : Params) : (State.resetFor p).slen = 0 := rfl
@[simp] theorem State.resetFor_blen (p : Params) : (State.resetFor p).blen = 0 := rfl
@[simp] theorem State.resetFor_ct (p : Params) : (State.resetFor p).ct = [] := rfl
@[simp] theorem State.resetFor_tm (p : Params) : (State.resetFor p).tm = [] := rfl
@[simp] theorem State.resetFor_sb (p : Params) : (State.resetFor p).sb = [] := rfl
@[simp] theorem State.resetFor_bb (p : Params) : (State.resetFor p).bb = [] := rfl
@[simp] theorem State.resetFor_params (p : Params) : (State.resetFor p).params = p := rfl
@[simp] theorem State.resetFor_pending (p : Params) : (State.resetFor p).pending = [] := rfl
@[simp] theorem State.resetFor_reads (p : Params) : (State.resetFor p).reads = [] := rfl

end Sys2Proof.Machine
end

