-- ==== Sys2Proof/Laws/Operands.lean ====
section
/-!
SUPPORT. The laws of the operand forms: code bits, the fields of a tree word, packed bytes and bit characters, the byte
order of a host word.
-/

namespace Sys2Proof

/-! ### Capacities -/

theorem Params.symCap_pos (p : Params) : 0 < p.symCap := by unfold Params.symCap; omega

theorem Params.symCap_le (p : Params) : p.symCap ≤ 65536 := by
  have := p.symWords.isLt; unfold Params.symCap; omega

theorem Params.symCap_mod (p : Params) : p.symCap % 4 = 0 := by unfold Params.symCap; omega

theorem Params.bbBytes_pos (p : Params) : 0 < p.bbBytes := by unfold Params.bbBytes; omega

theorem Params.bbBytes_le (p : Params) : p.bbBytes ≤ 65536 := by
  have := p.bbWords.isLt; unfold Params.bbBytes; omega

theorem Params.bbBytes_mod (p : Params) : p.bbBytes % 4 = 0 := by unfold Params.bbBytes; omega

end Sys2Proof

namespace Sys2Proof.Machine

theorem bitCap_le (p : Params) (f : Format) : bitCap p f ≤ 524288 := by
  have := p.bbBytes_le
  cases f <;> simp only [bitCap] <;> omega

theorem toNat_ofNat_of_lt {n : Nat} (h : n < 2 ^ 32) : (BitVec.ofNat 32 n).toNat = n := by
  rw [BitVec.toNat_ofNat, Nat.mod_eq_of_lt h]

/-! ### Code bits (R54) -/

@[simp] theorem State.length_codeBits (s : State) (y : Byte) : (s.codeBits y).length = s.ctLen y := by
  simp [State.codeBits]

theorem State.ctLen_le (s : State) (y : Byte) : s.ctLen y ≤ 255 := by
  unfold State.ctLen; exact Nat.le_of_lt_succ (BitVec.isLt _)

theorem State.codesFrom_zero (s : State) (i : Nat) : s.codesFrom i 0 = [] := rfl

theorem State.codesFrom_succ (s : State) (i n : Nat) :
    s.codesFrom i (n + 1) = s.codeBits (s.sbByte i) ++ s.codesFrom (i + 1) n := by
  simp [State.codesFrom, List.range_succ_eq_map, Function.comp_def, Nat.add_assoc, Nat.add_comm 1]

theorem State.lensFrom_zero (s : State) (i : Nat) : s.lensFrom i 0 = 0 := rfl

theorem State.lensFrom_succ (s : State) (i n : Nat) :
    s.lensFrom i (n + 1) = s.ctLen (s.sbByte i) + s.lensFrom (i + 1) n := by
  simp [State.lensFrom, List.range_succ_eq_map, Function.comp_def, Nat.add_assoc, Nat.add_comm 1]

theorem State.lensFrom_succ_last (s : State) (i n : Nat) :
    s.lensFrom i (n + 1) = s.lensFrom i n + s.ctLen (s.sbByte (i + n)) := by
  simp [State.lensFrom, List.range_succ]

theorem State.lensFrom_mono (s : State) (i : Nat) {m n : Nat} (h : m ≤ n) : s.lensFrom i m ≤ s.lensFrom i n := by
  induction h with
  | refl => exact le_rfl
  | step _ ih => rw [State.lensFrom_succ_last]; omega

@[simp] theorem State.length_codesFrom (s : State) (i n : Nat) : (s.codesFrom i n).length = s.lensFrom i n := by
  induction n generalizing i with
  | zero => rfl
  | succ n ih => rw [State.codesFrom_succ, State.lensFrom_succ, List.length_append, ih, State.length_codeBits]

/-! ### Packed bytes and bit characters (R58, R59, R93) -/

theorem padBit_of_lt {bits : List Bool} {p : Nat} (h : p < bits.length) : padBit bits p = bits[p] := by
  simp [padBit, h]

theorem padBit_of_ge {bits : List Bool} {p : Nat} (h : bits.length ≤ p) : padBit bits p = false := by
  simp [padBit, h]

/-- Bit 7 - j of a packed byte is bit 8k + j of the sequence (R58, R93). -/
theorem getLsbD_packByte (bits : List Bool) (k : Nat) {j : Nat} (h : j < 8) :
    (packByte bits k).getLsbD (7 - j) = padBit bits (8 * k + j) := by
  unfold packByte
  simp only [List.range, List.range.loop, List.map_cons, List.map_nil, List.sum_cons, List.sum_nil, Nat.add_zero]
  generalize hb0 : padBit bits (8 * k) = b0
  generalize hb1 : padBit bits (8 * k + 1) = b1
  generalize hb2 : padBit bits (8 * k + 2) = b2
  generalize hb3 : padBit bits (8 * k + 3) = b3
  generalize hb4 : padBit bits (8 * k + 4) = b4
  generalize hb5 : padBit bits (8 * k + 5) = b5
  generalize hb6 : padBit bits (8 * k + 6) = b6
  generalize hb7 : padBit bits (8 * k + 7) = b7
  rcases j with _ | _ | _ | _ | _ | _ | _ | _ | j
  all_goals try omega
  all_goals
    simp only [Nat.zero_add, Nat.reduceAdd, hb0, hb1, hb2, hb3, hb4, hb5, hb6, hb7, Nat.add_zero]
    (clear hb0 hb1 hb2 hb3 hb4 hb5 hb6 hb7; revert b0 b1 b2 b3 b4 b5 b6 b7; decide)

theorem length_packedBytes (bits : List Bool) (f : Format) :
    (packedBytes bits f).length = streamBytes bits.length f := by
  cases f <;> simp [packedBytes, streamBytes]

theorem streamBytes_le {p : Params} {f : Format} {n : Nat} (h : n ≤ bitCap p f) : streamBytes n f ≤ p.bbBytes := by
  cases f <;> simp only [bitCap, streamBytes] at * <;> omega

theorem BitChar.ofByte_charByte (b : Bool) : BitChar.ofByte (charByte b) = BitChar.ofBool b := by
  cases b <;> decide

end Sys2Proof.Machine
end

