-- ==== Sys2Proof/Laws/Commands.lean ====
section
/-!
SUPPORT. What each command can do, said once: the dropped-command gate, the encoder's loop and outcome, the walker's
step, loop and outcome, and the housekeeping commands.
-/

namespace Sys2Proof.Machine

/-! ### The gate (R130) -/

theorem State.latched_eq_false {s : State} : s.latched = false ↔ s.statusErr = none := by
  unfold State.latched; cases s.statusErr <;> simp

theorem State.latched_eq_true {s : State} : s.latched = true ↔ s.statusErr ≠ none := by
  unfold State.latched; cases s.statusErr <;> simp

theorem State.unlessLatched_clear {s : State} (h : s.statusErr = none) (o : Outcome) : s.unlessLatched o = o := by
  simp [State.unlessLatched, State.latched_eq_false.2 h]

theorem State.unlessLatched_latched {s : State} (h : s.statusErr ≠ none) (o : Outcome) :
    s.unlessLatched o = .next s := by
  simp [State.unlessLatched, State.latched_eq_true.2 h]

/-! ### The encoder's loop (R90, R95) -/

/-- Where the encoder's loop ends: all codes in order, or the first symbol that fails, LookupError before Overflow. -/
theorem encodeFrom_cases (s : State) (cap left i : Nat) (bits : List Bool) (hb : bits.length ≤ cap) :
    (encodeFrom s cap left i bits = .ok (bits ++ s.codesFrom i left) ∧
      (∀ j < left, s.ctLen (s.sbByte (i + j)) ≠ 0) ∧ bits.length + s.lensFrom i left ≤ cap) ∨
    ∃ j < left, (∀ m < j, s.ctLen (s.sbByte (i + m)) ≠ 0) ∧ bits.length + s.lensFrom i j ≤ cap ∧
      ((s.ctLen (s.sbByte (i + j)) = 0 ∧
          encodeFrom s cap left i bits = .error ⟨.lookupError, BitVec.ofNat 32 (i + j)⟩) ∨
        (s.ctLen (s.sbByte (i + j)) ≠ 0 ∧ cap < bits.length + s.lensFrom i (j + 1) ∧
          encodeFrom s cap left i bits = .error ⟨.overflow, BitVec.ofNat 32 (i + j)⟩)) := by
  induction left generalizing i bits with
  | zero => left; exact ⟨by simp [encodeFrom, State.codesFrom_zero], by simp, by simpa [State.lensFrom_zero] using hb⟩
  | succ n ih =>
    by_cases h0 : s.ctLen (s.sbByte i) = 0
    · refine .inr ⟨0, by omega, by simp, by simpa [State.lensFrom_zero] using hb, .inl ⟨h0, ?_⟩⟩
      simp [encodeFrom, h0]
    · by_cases hc : bits.length + s.ctLen (s.sbByte i) > cap
      · refine .inr ⟨0, by omega, by simp, by simpa [State.lensFrom_zero] using hb, .inr ⟨h0, ?_, ?_⟩⟩
        · simp only [State.lensFrom_succ, State.lensFrom_zero, Nat.add_zero]; omega
        · simp [encodeFrom, h0, hc]
      · have step : encodeFrom s cap (n + 1) i bits =
            encodeFrom s cap n (i + 1) (bits ++ s.codeBits (s.sbByte i)) := by
          simp [encodeFrom, h0, hc]
        have shift (m : Nat) : i + 1 + m = i + (m + 1) := by omega
        rcases ih (i + 1) (bits ++ s.codeBits (s.sbByte i)) (by simp; omega) with ⟨h1, h2, h3⟩ | ⟨j, hj, h2, h3, h4⟩
        · left
          refine ⟨by rw [step, h1, State.codesFrom_succ, List.append_assoc], fun j hj => ?_, ?_⟩
          · rcases j with _ | j
            · exact h0
            · have := h2 j (by omega); rwa [shift] at this
          · rw [State.lensFrom_succ]; simp at h3; omega
        · refine .inr ⟨j + 1, by omega, fun m hm => ?_, ?_, ?_⟩
          · rcases m with _ | m
            · exact h0
            · have := h2 m (by omega); rwa [shift] at this
          · rw [State.lensFrom_succ]; simp at h3; omega
          · rw [step]
            rw [shift] at h4
            refine h4.imp_right fun ⟨a, b, c⟩ => ⟨a, ?_, c⟩
            rw [State.lensFrom_succ]; simp at b; omega

/-- With no error to meet, EncBits is the concatenation of the codes (R92). -/
theorem encBits_of_encodable {s : State} (h : s.encodable) : encBits s = .ok (s.codesFrom 0 s.slen.toNat) := by
  obtain ⟨h1, h2, h3⟩ := h
  rw [encBits, if_neg (by omega)]
  rcases encodeFrom_cases s (bitCap s.params s.ctrlFmt) s.slen.toNat 0 [] (by simp) with
    ⟨h, _, _⟩ | ⟨j, hj, _, _, ⟨h4, _⟩ | ⟨_, h4, _⟩⟩
  · simpa using h
  · exact absurd h4 (by simpa using h2 j hj)
  · have := s.lensFrom_mono 0 (show j + 1 ≤ s.slen.toNat by omega)
    simp at h4; omega

/-- EncBits answers a sequence only where ENCODE meets no error. -/
theorem encodable_of_encBits {s : State} {bits : List Bool} (h : encBits s = .ok bits) :
    s.encodable ∧ bits = s.codesFrom 0 s.slen.toNat := by
  unfold encBits at h
  split at h
  · cases h
  · rcases encodeFrom_cases s (bitCap s.params s.ctrlFmt) s.slen.toNat 0 [] (by simp) with
      ⟨h1, h2, h3⟩ | ⟨j, hj, _, _, ⟨_, h4⟩ | ⟨_, _, h4⟩⟩
    · rw [h1] at h
      refine ⟨⟨by omega, by simpa using h2, by simpa using h3⟩, ?_⟩
      cases h; simp
    · rw [h4] at h; cases h
    · rw [h4] at h; cases h

/-- What ENCODE can do: dropped, an error raised, or the commit. -/
theorem execEncode_cases (s : State) :
    (s.statusErr ≠ none ∧ execEncode s = .next s) ∨
    (s.statusErr = none ∧ ∃ r, encBits s = .error r ∧ execEncode s = .next (s.raise r.kind r.pos)) ∨
    (s.statusErr = none ∧ ∃ bits, encBits s = .ok bits ∧ execEncode s = .next (commitEncode s bits)) := by
  by_cases h : s.statusErr = none
  · right
    unfold execEncode
    rw [State.unlessLatched_clear h]
    rcases hb : encBits s with r | bits
    · exact .inl ⟨h, r, rfl, rfl⟩
    · exact .inr ⟨h, bits, rfl, rfl⟩
  · exact .inl ⟨h, State.unlessLatched_latched h _⟩

/-! ### The walker (R103, R104) -/

/-- A step of the walker that goes on emits at most one symbol and never beyond SB. -/
theorem walkStep_ok {s : State} {pos : Nat} {w w' : Walk} (h : walkStep s pos w = .ok w') :
    ∃ b, s.bitChar s.ctrlFmt pos = BitChar.ofBool b ∧ nodeTag (s.tmWord w.cur) = .internal ∧
      ∃ nxt, nxt = (if b then nodeRight (s.tmWord w.cur) else nodeLeft (s.tmWord w.cur)) ∧
        ((nodeTag (s.tmWord nxt) = .internal ∧ w' = ⟨nxt, w.out⟩) ∨
          (nodeTag (s.tmWord nxt) = .leaf ∧ w.out.length ≠ s.params.symCap ∧
            w' = ⟨root, w.out ++ [nodeSym (s.tmWord nxt)]⟩)) := by
  have key (b : Bool) (h : takeBit s pos w b = .ok w') : nodeTag (s.tmWord w.cur) = .internal ∧
      ∃ nxt, nxt = (if b then nodeRight (s.tmWord w.cur) else nodeLeft (s.tmWord w.cur)) ∧
        ((nodeTag (s.tmWord nxt) = .internal ∧ w' = ⟨nxt, w.out⟩) ∨
          (nodeTag (s.tmWord nxt) = .leaf ∧ w.out.length ≠ s.params.symCap ∧
            w' = ⟨root, w.out ++ [nodeSym (s.tmWord nxt)]⟩)) := by
    unfold takeBit at h
    split at h
    · rename_i ht
      refine ⟨ht, _, rfl, ?_⟩
      unfold enterChild at h
      split at h
      · rename_i hn; cases h; exact .inl ⟨hn, rfl⟩
      · rename_i hn
        split at h
        · cases h
        · rename_i hl; cases h; exact .inr ⟨hn, hl, rfl⟩
      · cases h
      · cases h
    · cases h
  unfold walkStep at h
  split at h
  · cases h
  · rename_i hc; exact ⟨false, hc, key false h⟩
  · rename_i hc; exact ⟨true, hc, key true h⟩

/-- A step of the walker that ends the command names its position and one of DECODE's kinds (R106). -/
theorem walkStep_error {s : State} {pos : Nat} {w : Walk} {r : Raised} (h : walkStep s pos w = .error r) :
    r.pos = BitVec.ofNat 32 pos ∧
      (r.kind = .invalidBit ∧ s.bitChar s.ctrlFmt pos = .invalid ∨
        s.bitChar s.ctrlFmt pos ≠ .invalid ∧
          (r.kind = .overflow ∨ r.kind = .malformedStream ∨ r.kind = .badTree)) := by
  have key (b : Bool) (h : takeBit s pos w b = .error r) : r.pos = BitVec.ofNat 32 pos ∧
      (r.kind = .overflow ∨ r.kind = .malformedStream ∨ r.kind = .badTree) := by
    unfold takeBit at h
    split at h
    · unfold enterChild at h
      split at h
      · cases h
      · split at h <;> cases h; simp
      · cases h; simp
      · cases h; simp
    · cases h; simp
  unfold walkStep at h
  split at h
  · rename_i hc; cases h; simp [hc]
  · rename_i hc; have := key false h; simp [hc, this]
  · rename_i hc; have := key true h; simp [hc, this]

/-- Two stretches of the walk, one after the other. -/
theorem walkFrom_add (s : State) (m n pos : Nat) (w : Walk) :
    walkFrom s (m + n) pos w =
      match walkFrom s m pos w with
      | .error r => .error r
      | .ok w' => walkFrom s n (pos + m) w' := by
  induction m generalizing pos w with
  | zero => simp [walkFrom]
  | succ m ih =>
    rw [show m + 1 + n = m + n + 1 by omega, walkFrom, walkFrom]
    cases walkStep s pos w with
    | error r => rfl
    | ok w' => simp only; rw [ih, show pos + 1 + m = pos + (m + 1) by omega]

/-- A walk that goes on has read only Zero and One, and emits at most one symbol a bit, never beyond SB (R108). -/
theorem walkFrom_ok {s : State} {n pos : Nat} {w w' : Walk} (h : walkFrom s n pos w = .ok w')
    (hw : w.out.length ≤ s.params.symCap) :
    (∀ p < n, s.bitChar s.ctrlFmt (pos + p) ≠ .invalid) ∧ w'.out.length ≤ w.out.length + n ∧
      w'.out.length ≤ s.params.symCap := by
  induction n generalizing pos w with
  | zero => rw [walkFrom] at h; cases h; simp [hw]
  | succ n ih =>
    rw [walkFrom] at h
    cases hs : walkStep s pos w with
    | error r => rw [hs] at h; cases h
    | ok w₁ =>
      rw [hs] at h
      obtain ⟨b, hb, _, nxt, _, hcase⟩ := walkStep_ok hs
      have hlen : w₁.out.length ≤ w.out.length + 1 ∧ w₁.out.length ≤ s.params.symCap := by
        rcases hcase with ⟨_, rfl⟩ | ⟨_, hl, rfl⟩
        · exact ⟨by simp, hw⟩
        · exact ⟨by simp, by simp; omega⟩
      obtain ⟨h1, h2, h3⟩ := ih h hlen.2
      refine ⟨fun p hp => ?_, by omega, h3⟩
      rcases p with _ | p
      · rw [Nat.add_zero, hb]; cases b <;> simp [BitChar.ofBool]
      · have := h1 p (by omega); rwa [show pos + 1 + p = pos + (p + 1) by omega] at this

/-- A walk that ends the command does so at one of its positions (R106). -/
theorem walkFrom_error {s : State} {n pos : Nat} {w : Walk} {r : Raised} (h : walkFrom s n pos w = .error r) :
    ∃ p < n, (∀ q < p, s.bitChar s.ctrlFmt (pos + q) ≠ .invalid) ∧ r.pos = BitVec.ofNat 32 (pos + p) ∧
      (r.kind = .invalidBit ∧ s.bitChar s.ctrlFmt (pos + p) = .invalid ∨
        s.bitChar s.ctrlFmt (pos + p) ≠ .invalid ∧
          (r.kind = .overflow ∨ r.kind = .malformedStream ∨ r.kind = .badTree)) := by
  induction n generalizing pos w with
  | zero => cases h
  | succ n ih =>
    rw [walkFrom] at h
    cases hs : walkStep s pos w with
    | error r' =>
      rw [hs] at h
      cases h
      exact ⟨0, by omega, by simp, by simpa using walkStep_error hs⟩
    | ok w₁ =>
      rw [hs] at h
      obtain ⟨p, hp, h1, h2, h3⟩ := ih h
      have e : pos + 1 + p = pos + (p + 1) := by omega
      rw [e] at h2 h3
      refine ⟨p + 1, by omega, fun q hq => ?_, h2, h3⟩
      rcases q with _ | q
      · obtain ⟨b, hb, _⟩ := walkStep_ok hs
        rw [Nat.add_zero, hb]; cases b <;> simp [BitChar.ofBool]
      · have := h1 q (by omega); rwa [show pos + 1 + q = pos + (q + 1) by omega] at this

/-- What DECODE can do: dropped, an error raised, or the commit. -/
theorem execDecode_cases (s : State) :
    (s.statusErr ≠ none ∧ execDecode s = .next s) ∨
    (s.statusErr = none ∧ ∃ r, decodedSymbols s = .error r ∧ execDecode s = .next (s.raise r.kind r.pos)) ∨
    (s.statusErr = none ∧ ∃ out, decodedSymbols s = .ok out ∧ execDecode s = .next (commitDecode s out)) := by
  by_cases h : s.statusErr = none
  · right
    unfold execDecode
    rw [State.unlessLatched_clear h]
    rcases hb : decodedSymbols s with r | out
    · exact .inl ⟨h, r, rfl, rfl⟩
    · exact .inr ⟨h, out, rfl, rfl⟩
  · exact .inl ⟨h, State.unlessLatched_latched h _⟩

/-- DECODE answers symbols only where BLEN fits, the walk goes on to the end and the cursor is at the root (R104). -/
theorem decodedSymbols_ok {s : State} {out : List Byte} (h : decodedSymbols s = .ok out) :
    s.blen.toNat ≤ bitCap s.params s.ctrlFmt ∧
      walkFrom s s.blen.toNat 0 ⟨root, []⟩ = .ok ⟨root, out⟩ := by
  unfold decodedSymbols at h
  split at h
  · cases h
  · refine ⟨by omega, ?_⟩
    cases hw : walkFrom s s.blen.toNat 0 ⟨root, []⟩ with
    | error r => rw [hw] at h; cases h
    | ok w =>
      rw [hw] at h
      simp only at h
      split at h
      · rename_i hc; cases h; rw [← hc]
      · cases h

/-! ### Housekeeping (R115 to R119) -/

theorem execNop_eq (s : State) : execNop s = .next s := by
  unfold execNop State.unlessLatched; split <;> rfl

theorem execClrct_latched {s : State} (h : s.statusErr ≠ none) : execClrct s = .next s :=
  State.unlessLatched_latched h _

theorem execClrtm_latched {s : State} (h : s.statusErr ≠ none) : execClrtm s = .next s :=
  State.unlessLatched_latched h _

theorem execClrct_clear {s : State} (h : s.statusErr = none) : execClrct s = .next { s with ct := [] } :=
  State.unlessLatched_clear h _

theorem execClrtm_clear {s : State} (h : s.statusErr = none) : execClrtm s = .next { s with tm := [] } :=
  State.unlessLatched_clear h _

end Sys2Proof.Machine
end

