-- ==== Sys2Proof/Laws/Decode.lean ====
section
/-!
SUPPORT. The decoder as one chain of comparisons, and the fields of a command word.
-/

namespace Sys2Proof

theorem and_mask (w : Word) : w &&& (0xFFFFFFFF : Word) = w := by
  rw [show (0xFFFFFFFF : Word) = BitVec.allOnes 32 by decide, BitVec.and_allOnes]

theorem lookupRow_opcodeTable (w : Word) : lookupRow w opcodeTable =
    if w = 0x00000000 then some .nop
    else if w = 0x01000000 then some .encode
    else if w = 0x02000000 then some .decode
    else if w = 0x03000000 then some .clrerr
    else if w = 0x04000000 then some .clrct
    else if w = 0x05000000 then some .clrtm
    else if w = 0x06000000 then some .srst
    else none := by
  simp only [opcodeTable, lookupRow]
  rw [and_mask]

theorem opcKnown_iff (w : Word) : opcKnown w = true ↔ w.toNat / 2 ^ 24 ≤ 6 := by
  unfold opcKnown commandOpc; exact decide_eq_true_iff

theorem argZero_iff (w : Word) : argZero w = true ↔ w.toNat % 2 ^ 24 = 0 := by
  unfold argZero commandArg; exact beq_iff_eq

theorem eq_ofNat_iff {w : Word} {n : Nat} (h : n < 2 ^ 32) : w = BitVec.ofNat 32 n ↔ w.toNat = n := by
  constructor
  · rintro rfl; rw [BitVec.toNat_ofNat, Nat.mod_eq_of_lt h]
  · intro e; apply BitVec.eq_of_toNat_eq; rw [BitVec.toNat_ofNat, Nat.mod_eq_of_lt h, e]

/-- The decoder, the table read row by row. -/
theorem decode_eq (w : Word) : decode w =
    if w = 0x00000000 then .ok .nop
    else if w = 0x01000000 then .ok .encode
    else if w = 0x02000000 then .ok .decode
    else if w = 0x03000000 then .ok .clrerr
    else if w = 0x04000000 then .ok .clrct
    else if w = 0x05000000 then .ok .clrtm
    else if w = 0x06000000 then .ok .srst
    else if opcKnown w then .error (.nonzeroArg w)
    else .error (.illegalOpcode w) := by
  unfold decode
  rw [lookupRow_opcodeTable]
  by_cases h0 : w = 0x00000000
  · rw [if_pos h0, if_pos h0]
  by_cases h1 : w = 0x01000000
  · rw [if_neg h0, if_neg h0, if_pos h1, if_pos h1]
  by_cases h2 : w = 0x02000000
  · rw [if_neg h0, if_neg h0, if_neg h1, if_neg h1, if_pos h2, if_pos h2]
  by_cases h3 : w = 0x03000000
  · rw [if_neg h0, if_neg h0, if_neg h1, if_neg h1, if_neg h2, if_neg h2, if_pos h3, if_pos h3]
  by_cases h4 : w = 0x04000000
  · rw [if_neg h0, if_neg h0, if_neg h1, if_neg h1, if_neg h2, if_neg h2, if_neg h3, if_neg h3, if_pos h4, if_pos h4]
  by_cases h5 : w = 0x05000000
  · simp only [if_neg h0, if_neg h1, if_neg h2, if_neg h3, if_neg h4, if_pos h5]
  by_cases h6 : w = 0x06000000
  · simp only [if_neg h0, if_neg h1, if_neg h2, if_neg h3, if_neg h4, if_neg h5, if_pos h6]
  simp only [if_neg h0, if_neg h1, if_neg h2, if_neg h3, if_neg h4, if_neg h5, if_neg h6]

end Sys2Proof
end

