-- ==== Sys2Proof/Laws/Access.lean ====
section
/-!
SUPPORT. What a host operation can do, said once: the map, the accepted accesses, the block's answer, the dispatcher,
one step.
-/

namespace Sys2Proof.Machine

/-! ### The map (R31, R32) -/

/-- An accepted access is an aligned word of the window at a location of the map. -/
theorem accepted_some {p : Params} {off size : Nat} {loc : Loc} (h : accepted p off size = some loc) :
    size = 4 ∧ off % 4 = 0 ∧ off < windowBytes ∧ locate p off = some loc := by
  unfold accepted at h
  split at h
  · rename_i hc; exact ⟨hc.1, hc.2.1, hc.2.2, h⟩
  · cases h

/-- A location the map gives is below the capacities. -/
theorem locate_mapped {p : Params} {off : Nat} {loc : Loc} (h : locate p off = some loc) (ha : off % 4 = 0) :
    loc.mapped p = true := by
  have hs := p.symCap_mod
  have hb := p.bbBytes_mod
  unfold locate at h
  split at h
  · split at h <;> cases h <;> rfl
  split at h
  · cases h; rfl
  split at h
  · cases h
  split at h
  · simp only at h
    split at h
    · rename_i hk; cases h; simpa [Loc.mapped] using hk
    · cases h
  split at h
  · cases h
  split at h
  · split at h
    · cases h; simp only [Loc.mapped, decide_eq_true_eq]; omega
    · cases h
  split at h
  · cases h; simp only [Loc.mapped, decide_eq_true_eq]; omega
  · cases h

/-- An accepted access reaches a location of the block. -/
theorem accepted_mapped {p : Params} {off size : Nat} {loc : Loc} (h : accepted p off size = some loc) :
    loc.mapped p = true :=
  have ⟨_, ha, _, hl⟩ := accepted_some h
  locate_mapped hl ha

@[simp] theorem accepted_cmd (p : Params) : accepted p 0 4 = some .cmd := by
  simp [accepted, locate, windowBytes]

/-! ### The block's answer (R32 to R34) -/

@[simp] theorem serve_hardReset (s : State) : serve .hardReset s = .next (s.resetBlock, .ok) := rfl

theorem serve_read {s : State} {off size : Nat} {loc : Loc} (h : accepted s.params off size = some loc) :
    serve (.read off size) s = .next (s, .data (readLoc s loc)) := by
  simp [serve, h]

theorem serve_write {s : State} {off size : Nat} {loc : Loc} (v : Word)
    (h : accepted s.params off size = some loc) :
    serve (.write off size v) s = withReply .ok (writeLoc s loc v) := by
  simp [serve, h]

theorem serve_read_refused {s : State} {off size : Nat} (h : accepted s.params off size = none) :
    serve (.read off size) s = .next (s, .busError) := by
  simp [serve, h]

theorem serve_write_refused {s : State} {off size : Nat} (v : Word) (h : accepted s.params off size = none) :
    serve (.write off size v) s = .next (s, .busError) := by
  simp [serve, h]

/-! ### Commands and the dispatcher (R51) -/

/-- What a command can make of the state: each line is one command's whole effect. -/
theorem exec_cases {i : Instr} {s t : State} (h : exec i s = .next t) :
    t = s ∨
    (s.statusErr = none ∧ i = .encode ∧ ∃ r, encBits s = .error r ∧ t = s.raise r.kind r.pos) ∨
    (s.statusErr = none ∧ i = .encode ∧ ∃ bits, encBits s = .ok bits ∧ t = commitEncode s bits) ∨
    (s.statusErr = none ∧ i = .decode ∧ ∃ r, decodedSymbols s = .error r ∧ t = s.raise r.kind r.pos) ∨
    (s.statusErr = none ∧ i = .decode ∧ ∃ out, decodedSymbols s = .ok out ∧ t = commitDecode s out) ∨
    (i = .clrerr ∧ t = s.clearErr) ∨
    (s.statusErr = none ∧ i = .clrct ∧ t = { s with ct := [] }) ∨
    (s.statusErr = none ∧ i = .clrtm ∧ t = { s with tm := [] }) ∨
    (i = .srst ∧ t = s.resetBlock) := by
  cases i with
  | nop =>
    simp only [exec, execNop_eq] at h
    cases h; exact .inl rfl
  | encode =>
    simp only [exec] at h
    rcases execEncode_cases s with ⟨_, he⟩ | ⟨hn, r, hr, he⟩ | ⟨hn, b, hb, he⟩ <;> rw [he] at h <;> cases h
    · exact .inl rfl
    · exact .inr (.inl ⟨hn, rfl, r, hr, rfl⟩)
    · exact .inr (.inr (.inl ⟨hn, rfl, b, hb, rfl⟩))
  | decode =>
    simp only [exec] at h
    rcases execDecode_cases s with ⟨_, he⟩ | ⟨hn, r, hr, he⟩ | ⟨hn, b, hb, he⟩ <;> rw [he] at h <;> cases h
    · exact .inl rfl
    · exact .inr (.inr (.inr (.inl ⟨hn, rfl, r, hr, rfl⟩)))
    · exact .inr (.inr (.inr (.inr (.inl ⟨hn, rfl, b, hb, rfl⟩))))
  | clrerr =>
    simp only [exec, execClrerr] at h
    cases h; simp
  | clrct =>
    simp only [exec] at h
    by_cases hn : s.statusErr = none
    · rw [execClrct_clear hn] at h; cases h; simp [hn]
    · rw [execClrct_latched hn] at h; cases h; simp
  | clrtm =>
    simp only [exec] at h
    by_cases hn : s.statusErr = none
    · rw [execClrtm_clear hn] at h; cases h; simp [hn]
    · rw [execClrtm_latched hn] at h; cases h; simp
  | srst =>
    simp only [exec, execSrst] at h
    cases h; simp

/-- What a word written to CMD can do: dropped, BadCommand, or its command. -/
theorem present_cases (w : Word) (s : State) :
    (∃ e, decode w = .error e ∧ s.statusErr ≠ none ∧ present w s = .next s) ∨
    (∃ e, decode w = .error e ∧ s.statusErr = none ∧ present w s = .next (s.raise .badCommand w)) ∨
    ∃ i, decode w = .ok i ∧ present w s = exec i s := by
  unfold present
  cases hd : decode w with
  | error e =>
    by_cases hn : s.statusErr = none
    · exact .inr (.inl ⟨e, rfl, hn, State.unlessLatched_clear hn _⟩)
    · exact .inl ⟨e, rfl, hn, State.unlessLatched_latched hn _⟩
  | ok i => exact .inr (.inr ⟨i, rfl, rfl⟩)

/-! ### One step (R6, R7) -/

/-- What a step can do, by the host's next operation. -/
theorem step_cases {s t : State} (h : step s = .next t) :
    (s.pending = [] ∧ t = s) ∨
    ∃ op rest, s.pending = op :: rest ∧
      ((op = .hardReset ∧ t = { s with pending := rest }.resetBlock) ∨
       (∃ off size loc, op = .read off size ∧ accepted s.params off size = some loc ∧
          t = { s with pending := rest, reads := s.reads ++ [readLoc { s with pending := rest } loc] }) ∨
       (∃ off size v loc, op = .write off size v ∧ accepted s.params off size = some loc ∧
          writeLoc { s with pending := rest } loc v = .next t)) := by
  unfold step hostStep at h
  split at h
  · rename_i hp; cases h; exact .inl ⟨hp, rfl⟩
  · rename_i op rest hp
    refine .inr ⟨op, rest, hp, ?_⟩
    cases op with
    | hardReset =>
      rw [serve_hardReset] at h
      simp only [receive] at h
      cases h; exact .inl ⟨rfl, rfl⟩
    | read off size =>
      cases ha : accepted s.params off size with
      | none =>
        rw [serve_read_refused (s := { s with pending := rest }) ha] at h
        simp [receive] at h
      | some loc =>
        rw [serve_read (s := { s with pending := rest }) ha] at h
        simp only [receive] at h
        cases h; exact .inr (.inl ⟨off, size, loc, rfl, ha, rfl⟩)
    | write off size v =>
      cases ha : accepted s.params off size with
      | none =>
        rw [serve_write_refused (s := { s with pending := rest }) v ha] at h
        simp [receive] at h
      | some loc =>
        rw [serve_write (s := { s with pending := rest }) v ha] at h
        refine .inr (.inr ⟨off, size, v, loc, rfl, ha, ?_⟩)
        cases hw : writeLoc { s with pending := rest } loc v with
        | next u => rw [hw] at h; simp only [withReply, receive] at h; exact h
        | fault f => rw [hw] at h; simp [withReply, receive] at h
        | refused r => rw [hw] at h; simp [withReply, receive] at h

end Sys2Proof.Machine
end

