-- ==== Sys2Proof/Laws/HostProgram.lean ====
section
/-!
SUPPORT. What a run and a host program can do: runs compose, and a program whose run completes gives the run's state and
values or ends in the fault of a `BusError`.
-/

namespace Sys2Proof.Machine

@[simp] theorem runOps_nil (s : State) : runOps [] s = .next (s, []) := rfl

/-- The first operation of a run, then the rest from the state it leaves. -/
theorem runOps_cons {op : HostOp} {ops : List HostOp} {s t u : State} {r : Reply} {replies : List Reply}
    (h : serve op s = .next (t, r)) (hs : runOps ops t = .next (u, replies)) :
    runOps (op :: ops) s = .next (u, r :: replies) := by
  simp only [runOps, h, hs]

/-- A completed run's first operation and its rest. -/
theorem runOps_cons_inv {op : HostOp} {ops : List HostOp} {s u : State} {replies : List Reply}
    (h : runOps (op :: ops) s = .next (u, replies)) :
    ∃ t r rest, serve op s = .next (t, r) ∧ runOps ops t = .next (u, rest) ∧ replies = r :: rest := by
  simp only [runOps] at h
  split at h
  · cases h
  · cases h
  · rename_i t r hserve
    split at h
    · cases h
    · cases h
    · rename_i v rest hrest
      cases h
      exact ⟨t, r, rest, hserve, hrest, rfl⟩

/-- A completed run has one answer an operation. -/
theorem length_replies {ops : List HostOp} {s t : State} {replies : List Reply}
    (h : runOps ops s = .next (t, replies)) : replies.length = ops.length := by
  induction ops generalizing s replies with
  | nil => cases h; rfl
  | cons op ops ih =>
    obtain ⟨_, _, _, _, hs, rfl⟩ := runOps_cons_inv h
    simp [ih hs]

/-- A run of two stretches is the second's run from the state the first leaves. -/
theorem runOps_append {ops ops' : List HostOp} {s t u : State} {replies replies' : List Reply}
    (h : runOps ops s = .next (t, replies)) (h' : runOps ops' t = .next (u, replies')) :
    runOps (ops ++ ops') s = .next (u, replies ++ replies') := by
  induction ops generalizing s replies with
  | nil => cases h; exact h'
  | cons op ops ih =>
    obtain ⟨_, _, _, hv, hs, rfl⟩ := runOps_cons_inv h
    exact runOps_cons hv (ih hs)

/-- A program whose run completes ends in one of two ways: the run's state and values, or the fault of the first
operation that drew a `BusError`. -/
theorem runProgram_of_run {ops : List HostOp} {s t : State} {replies : List Reply}
    (h : runOps ops s = .next (t, replies)) :
    (firstBusError ops replies = none ∧ runProgram ops s = .next (t, readValues replies)) ∨
      ∃ op, firstBusError ops replies = some op ∧ runProgram ops s = .fault (.busError op) := by
  unfold runProgram
  rw [h]
  cases hb : firstBusError ops replies with
  | none => exact .inl ⟨rfl, by simp [hb]⟩
  | some op => exact .inr ⟨op, rfl, by simp [hb]⟩

end Sys2Proof.Machine
end

