-- ==== Sys2Proof/Laws/Invariant.lean ====
section
/-!
SUPPORT. Every operation over the state keeps the invariant of Sys2Proof/Safety.lean, one lemma per operation.
-/

namespace Sys2Proof.Machine

theorem State.inv_raise {s : State} (h : s.Inv) {k : ErrKind} (hk : k ≠ .invalidInput) (p : Word) :
    (s.raise k p).Inv :=
  ⟨h.1, h.2.1, by simpa [State.errOk] using hk⟩

theorem State.inv_clearErr {s : State} (h : s.Inv) : s.clearErr.Inv :=
  ⟨h.1, h.2.1, by simp [State.errOk]⟩

theorem State.inv_resetBlock (s : State) : s.resetBlock.Inv :=
  ⟨⟨Memory.wf_nil, Memory.wf_nil, Memory.wf_nil, Memory.wf_nil⟩, ⟨rfl, rfl, rfl, rfl⟩, by simp [State.errOk]⟩

theorem State.inv_clearCt {s : State} (h : s.Inv) : { s with ct := [] }.Inv :=
  ⟨⟨Memory.wf_nil, h.1.2⟩, ⟨rfl, h.2.1.2⟩, h.2.2⟩

theorem State.inv_clearTm {s : State} (h : s.Inv) : { s with tm := [] }.Inv :=
  ⟨⟨h.1.1, Memory.wf_nil, h.1.2.2⟩, ⟨h.2.1.1, rfl, h.2.1.2.2⟩, h.2.2⟩

theorem tmCellOk_write (i : NodeIdx) (v : Word) : tmCellOk (i.toNat, v &&& tmMask) = true := by
  have := i.isLt
  simp [tmCellOk, BitVec.and_assoc]
  omega

theorem ctCellOk_write (y : Byte) {k : Nat} (hk : k ≤ 8) (v : Word) :
    ctCellOk (ctAddr y k, v &&& ctMask k) = true := by
  have := y.isLt
  have h1 : ctAddr y k % 16 = k := by unfold ctAddr; omega
  have h2 : ctAddr y k < 4096 := by unfold ctAddr; omega
  simp [ctCellOk, h1, h2, hk, BitVec.and_assoc]

theorem State.inv_setTmWord {s : State} (h : s.Inv) (i : NodeIdx) (v : Word) : (s.setTmWord i v).Inv := by
  refine ⟨⟨h.1.1, Memory.wf_write _ _ h.1.2.1, h.1.2.2⟩, ⟨h.2.1.1, ?_, h.2.1.2.2⟩, h.2.2⟩
  rw [List.all_eq_true]
  intro c hc
  rcases Memory.mem_write hc with rfl | hc
  · exact tmCellOk_write i v
  · exact List.all_eq_true.1 h.2.1.2.1 c hc

theorem State.inv_setCtWord {s : State} (h : s.Inv) (y : Byte) {k : Nat} (hk : k ≤ 8) (v : Word) :
    (s.setCtWord y k v).Inv := by
  refine ⟨⟨Memory.wf_write _ _ h.1.1, h.1.2⟩, ⟨?_, h.2.1.2⟩, h.2.2⟩
  rw [List.all_eq_true]
  intro c hc
  rcases Memory.mem_write hc with rfl | hc
  · exact ctCellOk_write y hk v
  · exact List.all_eq_true.1 h.2.1.1 c hc

theorem State.inv_putSb {s : State} (h : s.Inv) {k : Nat} {l : List Byte} (hl : k + l.length ≤ s.params.symCap) :
    (s.putSb k l).Inv := by
  refine ⟨⟨h.1.1, h.1.2.1, Memory.wf_writeAll _ _ h.1.2.2.1, h.1.2.2.2⟩, ⟨h.2.1.1, h.2.1.2.1, ?_, h.2.1.2.2.2⟩, h.2.2⟩
  rw [List.all_eq_true]
  intro c hc
  rcases Memory.mem_writeAll hc with hc | hc
  · exact decide_eq_true (show c.1 < s.params.symCap by omega)
  · exact List.all_eq_true.1 h.2.1.2.2.1 c hc

theorem State.inv_putBb {s : State} (h : s.Inv) {k : Nat} {l : List Byte} (hl : k + l.length ≤ s.params.bbBytes) :
    (s.putBb k l).Inv := by
  refine ⟨⟨h.1.1, h.1.2.1, h.1.2.2.1, Memory.wf_writeAll _ _ h.1.2.2.2⟩, ⟨h.2.1.1, h.2.1.2.1, h.2.1.2.2.1, ?_⟩, h.2.2⟩
  rw [List.all_eq_true]
  intro c hc
  rcases Memory.mem_writeAll hc with hc | hc
  · exact decide_eq_true (show c.1 < s.params.bbBytes by omega)
  · exact List.all_eq_true.1 h.2.1.2.2.2 c hc

end Sys2Proof.Machine
end

