-- ==== Sys2Proof/Laws/PerInstr.lean ====
section
/-!
SUPPORT. One lemma per constructor of Instr: a command is well formed, its word is a legal one (spec/30_encoding.md R53)
with ARG = 0, and the decoder gives it back (R52).
-/

namespace Sys2Proof.Laws.CommandWords

/-- What is said of every command as syntax. -/
def Statement (i : Sys2Proof.Instr) : Prop :=
  i.wf = true ∧ Sys2Proof.wellFormedWord (Sys2Proof.encode i) = true ∧
    Sys2Proof.decode (Sys2Proof.encode i) = .ok i

theorem nop : Statement .nop := ⟨rfl, rfl, rfl⟩

theorem encode : Statement .encode := ⟨rfl, rfl, rfl⟩

theorem decode : Statement .decode := ⟨rfl, rfl, rfl⟩

theorem clrerr : Statement .clrerr := ⟨rfl, rfl, rfl⟩

theorem clrct : Statement .clrct := ⟨rfl, rfl, rfl⟩

theorem clrtm : Statement .clrtm := ⟨rfl, rfl, rfl⟩

theorem srst : Statement .srst := ⟨rfl, rfl, rfl⟩

end Sys2Proof.Laws.CommandWords
end

