-- ==== Sys2Proof/Laws/Trees.lean ====
section
/-!
SUPPORT. The codes of a tree by its shape (spec/40_host_preparation.md R78): what a node adds to the codes of its
children, and which symbols have one.
-/

namespace Sys2Proof.Machine

/-- The codes below a node all begin with the path to it. -/
theorem codeWalk_path (t : HTree) (path : List Bool) :
    codeWalk t path = (codeWalk t []).map fun e => (e.1, path ++ e.2) := by
  induction t generalizing path with
  | leaf => simp [codeWalk]
  | synth => rfl
  | node f l r hl hr =>
    simp only [codeWalk]
    rw [hl (path ++ [false]), hr (path ++ [true]), hl ([] ++ [false]), hr ([] ++ [true])]
    simp [Function.comp_def]

/-- Looking a symbol up after a change of every code. -/
theorem CodeMap.lookup_map_snd (c : CodeMap) (g : List Bool → List Bool) (y : Byte) :
    (c.map fun e => (e.1, g e.2)).lookup y = (c.lookup y).map g := by
  induction c with
  | nil => rfl
  | cons e c ih =>
    rcases e with ⟨z, code⟩
    simp only [List.map_cons, List.lookup_cons]
    split <;> simp [ih]

/-- A leaf gives its own symbol the empty path and no other symbol any. -/
theorem HTree.codeOf_leaf (z : Byte) (f : Nat) (y : Byte) :
    (HTree.leaf z f).codeOf y = if y = z then some [] else none := by
  by_cases h : y = z
  · simp [HTree.codeOf, codeWalk, h]
  · simp [HTree.codeOf, codeWalk, List.lookup_cons, h, beq_eq_false_iff_ne.2 h]

/-- The synthetic leaf stands for no symbol. -/
theorem HTree.codeOf_synth (y : Byte) : HTree.synth.codeOf y = none := rfl

/-- A node puts 0 before the codes of its left child and 1 before those of its right child. -/
theorem HTree.codeOf_node (f : Nat) (l r : HTree) (y : Byte) :
    (HTree.node f l r).codeOf y = ((l.codeOf y).map (false :: ·)).or ((r.codeOf y).map (true :: ·)) := by
  unfold HTree.codeOf
  rw [codeWalk, List.lookup_append, codeWalk_path l, codeWalk_path r, CodeMap.lookup_map_snd,
    CodeMap.lookup_map_snd]
  simp

/-- The symbols that have a code are those of the tree's real leaves. -/
theorem HTree.mem_symbols_iff (t : HTree) (y : Byte) : y ∈ t.symbols ↔ (t.codeOf y).isSome = true := by
  induction t with
  | leaf z f => rw [HTree.codeOf_leaf]; simp [HTree.symbols]
  | synth => simp [HTree.symbols, HTree.codeOf_synth]
  | node f l r hl hr => rw [HTree.codeOf_node]; simp [HTree.symbols, hl, hr]

end Sys2Proof.Machine
end

