-- ==== Sys2Proof/Tests/Slice0.lean ====
section
/-!
SUPPORT. Tests and witnesses. The expected results are those of spec/95_test_vectors.md (V1 to V73), which its authors
computed from the rules by hand; the states are small and written from its lines.
-/

namespace Sys2Proof.Tests

set_option Elab.async false

open Sys2Proof Sys2Proof.Machine

/-! ### Helpers -/

/-- The state a step or a command leaves, where it leaves one. -/
def after : Outcome → Option State
  | .next s => some s
  | .fault _ => none
  | .refused _ => none

/-- Whether an outcome is a next state that the check accepts. -/
def gives (o : Outcome) (check : State → Bool) : Bool := (after o).any check

/-- The state and the answer of a host operation, or of a run of them. -/
def answer {α : Type} : Host.Outcome α Fault Refusal → Option α
  | .next a => some a
  | .fault _ => none
  | .refused _ => none

/-- The capacities of V31 to V33 and V50: SYM_CAP = 16, BB_BYTES = 4. -/
def smallParams : Params := ⟨3, 0, 0⟩

/-- V1: the tables of "aaaa". -/
def stateV1 : State :=
  { State.reset with
    ct := [(0x610, 0x00000001), (0x611, 0x80000000)]
    tm := [(0, 0x40010002), (1, 0xC0000000), (2, 0x80000061)] }

/-- V3: the code table of "abcdefg". -/
def ctV3 : Memory 32 :=
  [(0x610, 3), (0x611, 0x40000000), (0x620, 3), (0x621, 0x60000000), (0x630, 3), (0x631, 0x80000000),
   (0x640, 3), (0x641, 0xA0000000), (0x650, 3), (0x651, 0xC0000000), (0x660, 3), (0x661, 0xE0000000), (0x670, 2)]

/-- V3: the tree memory of "abcdefg". -/
def tmV3 : Memory 32 :=
  [(0, 0x40010006), (1, 0x40020003), (2, 0x80000067), (3, 0x40040005), (4, 0x80000061), (5, 0x80000062),
   (6, 0x4007000A), (7, 0x40080009), (8, 0x80000063), (9, 0x80000064), (10, 0x400B000C), (11, 0x80000065),
   (12, 0x80000066)]

/-- V3: both tables of "abcdefg". -/
def stateV3 : State := { State.reset with ct := ctV3, tm := tmV3 }

/-- "abcdefg". -/
def abcdefg : List Byte := [0x61, 0x62, 0x63, 0x64, 0x65, 0x66, 0x67]

/-- V3 with the text in SB. -/
def stateV23 : State :=
  { stateV3 with sb := [(0, 0x61), (1, 0x62), (2, 0x63), (3, 0x64), (4, 0x65), (5, 0x66), (6, 0x67)], slen := 7 }

/-- V21 and V28: "aaaa" in SB, and BB[0], BB[1] as V28 has them. -/
def stateV28 : State :=
  { stateV1 with sb := [(0, 0x61), (1, 0x61), (2, 0x61), (3, 0x61)], slen := 4, bb := [(0, 0xFF), (1, 0xEE)] }

/-- V30: "abz" against the table of V3, with an older result in BB. -/
def stateV30 : State :=
  { stateV3 with
    sb := [(0, 0x61), (1, 0x62), (2, 0x7A)], slen := 3, blen := 7
    bb := [(0, 0xEF), (1, 0xBE), (2, 0xAD), (3, 0xDE)] }

/-- V44: bits 1011 against the tree of V1. -/
def stateV44 : State :=
  { stateV1 with
    bb := [(0, 0xB0)], blen := 4, sb := [(0, 0x55), (1, 0x55), (2, 0x55), (3, 0x55)], slen := 9 }

/-- V41: "01x" against the tree of V3. -/
def stateV41 : State :=
  { stateV3 with ctrlFmt := .character, bb := [(0, 0x30), (1, 0x31), (2, 0x78)], blen := 3 }

/-- V43: "0100" against the tree of V3. -/
def stateV43 : State :=
  { stateV3 with
    ctrlFmt := .character, bb := [(0, 0x30), (1, 0x31), (2, 0x30), (3, 0x30)], blen := 4 }

/-- V62: BadCommand latched at 0x01000001, with the tables of V3. -/
def stateV62 : State := { stateV3 with statusErr := some .badCommand, errpos := 0x01000001 }

/-- V1's tree: Node(5, Synth, Leaf('a', 4)). -/
def treeV1 : HTree := .node 5 .synth (.leaf 0x61 4)

/-- V3's tree. -/
def treeV3 : HTree :=
  .node 7 (.node 3 (.leaf 0x67 1) (.node 2 (.leaf 0x61 1) (.leaf 0x62 1)))
    (.node 4 (.node 2 (.leaf 0x63 1) (.leaf 0x64 1)) (.node 2 (.leaf 0x65 1) (.leaf 0x66 1)))

/-! ### Well-formedness and decoding (R50 to R53, V60, V61) -/

/-- An ill-formed word for each check of WellFormed, refused, and a word both accept. -/
theorem test_wellFormed_smoke :
    opcKnown 0x07000000 = false ∧ argZero 0x07000000 = true ∧ wellFormedWord 0x07000000 = false ∧
    opcKnown 0x01000001 = true ∧ argZero 0x01000001 = false ∧ wellFormedWord 0x01000001 = false ∧
    wellFormedWord 0x06000000 = true := by decide

/-- Each command's word, bit by bit: OPC in bits 31:24, then 24 zeros (R50, R52). -/
theorem test_decode_words :
    decode 0b00000000000000000000000000000000 = .ok .nop ∧
    decode 0b00000001000000000000000000000000 = .ok .encode ∧
    decode 0b00000010000000000000000000000000 = .ok .decode ∧
    decode 0b00000011000000000000000000000000 = .ok .clrerr ∧
    decode 0b00000100000000000000000000000000 = .ok .clrct ∧
    decode 0b00000101000000000000000000000000 = .ok .clrtm ∧
    decode 0b00000110000000000000000000000000 = .ok .srst := ⟨rfl, rfl, rfl, rfl, rfl, rfl, rfl⟩

/-- The words at the edges of the two illegal classes (R53, V60, V61). -/
theorem test_decode_illegal :
    decode 0x07000000 = .error (.illegalOpcode 0x07000000) ∧
    decode 0xFFFFFFFF = .error (.illegalOpcode 0xFFFFFFFF) ∧
    decode 0x00000001 = .error (.nonzeroArg 0x00000001) ∧
    decode 0x01000001 = .error (.nonzeroArg 0x01000001) ∧
    decode 0x06FFFFFF = .error (.nonzeroArg 0x06FFFFFF) := ⟨rfl, rfl, rfl, rfl, rfl⟩

/-- What the host asks of the table: each row's word, read and run as the first step after reset. -/
theorem test_table_words :
    decodeTableWord 32 0x02000000 = some .decode ∧ decodeTableWord 32 0x07000000 = none ∧
    (after (step (State.reset.withFetchWord 32 0x06000000))).isSome = true ∧
    after (step (stateV28.withFetchWord 32 0x01000000)) = after (exec .encode stateV28) := by decide +kernel

/-! ### Housekeeping (V60 to V66) -/

/-- V60 and V61: an illegal word raises BadCommand with the word itself. -/
theorem test_badCommand :
    after (present 0x07000000 State.reset) =
      some { State.reset with statusErr := some .badCommand, errpos := 0x07000000 } ∧
    after (present 0x01000001 stateV28) =
      some { stateV28 with statusErr := some .badCommand, errpos := 0x01000001 } := by decide +kernel

/-- V62: with the error latched the other words are dropped, and host writes still work. -/
theorem test_sticky :
    after (present 0x04000000 stateV62) = some stateV62 ∧ after (present 0x01000000 stateV62) = some stateV62 ∧
    after (present 0x02000000 stateV62) = some stateV62 ∧ after (present 0xFFFFFFFF stateV62) = some stateV62 ∧
    answer (serve (.write 0x10 4 5) stateV62) = some ({ stateV62 with slen := 5 }, .ok) := by decide +kernel

/-- V63. -/
theorem test_clrerr :
    after (exec .clrerr stateV62) = some stateV3 ∧ after (exec .clrerr stateV3) = some stateV3 := by decide +kernel

/-- V64: CLRCT clears CT and leaves TM. -/
theorem test_clrct : after (exec .clrct stateV3) = some { State.reset with tm := tmV3 } := by decide +kernel

/-- V64: CLRTM clears TM and leaves CT. -/
theorem test_clrtm : after (exec .clrtm stateV3) = some { State.reset with ct := ctV3 } := by decide +kernel

/-- V65: SRST with an error latched. -/
theorem test_srst : after (exec .srst stateV62) = some State.reset := by decide +kernel

/-- V66. -/
theorem test_nop : after (exec .nop stateV62) = some stateV62 ∧ after (exec .nop stateV3) = some stateV3 := by
  decide +kernel

/-! ### ENCODE (V-B) -/

/-- V28: BB[0] is rewritten whole, BB[1] is kept; V21 in the character format. -/
theorem test_encode_aaaa :
    after (exec .encode stateV28) = some { stateV28 with blen := 4, bb := [(0, 0xF0), (1, 0xEE)] } ∧
    gives (exec .encode { stateV28 with ctrlFmt := .character })
      (fun t => bufferWord t.bb 0 == 0x31313131 && t.blen == 4) = true := by decide +kernel

/-- V23 in both formats, and V30: the failing ENCODE leaves BLEN, BB and SLEN. -/
theorem test_encode_abcdefg :
    gives (exec .encode stateV23) (fun t => bufferWord t.bb 0 == 0x00C05D4E && t.blen == 20) = true ∧
    gives (exec .encode { stateV23 with ctrlFmt := .character }) (fun t =>
      bufferWord t.bb 1 == 0x30313131 && bufferWord t.bb 4 == 0x30303131 && t.blen == 20) = true ∧
    after (exec .encode stateV30) = some { stateV30 with statusErr := some .lookupError, errpos := 2 } := by
  decide +kernel

/-! ### DECODE (V-C) -/

/-- V40 with V23, V43's second stream, and V41: InvalidBit before the tree. -/
theorem test_decode_abcdefg :
    gives (exec .decode { stateV3 with bb := [(0, 0x4E), (1, 0x5D), (2, 0xC0)], blen := 20 })
      (fun t => bufferWord t.sb 0 == 0x64636261 && bufferWord t.sb 1 == 0x00676665 && t.slen == 7) = true ∧
    gives (exec .decode { stateV43 with bb := stateV43.bb ++ [(4, 0x30)], blen := 5 })
      (fun t => t.sbByte 0 == 0x61 && t.sbByte 1 == 0x67 && t.slen == 2) = true ∧
    after (exec .decode stateV41) = some { stateV41 with statusErr := some .invalidBit, errpos := 2 } := by
  decide +kernel

/-- V43, V44, V45 and V51: the tree's errors, and a graph with a cycle. -/
theorem test_decode_graphs :
    after (exec .decode stateV43) = some { stateV43 with statusErr := some .malformedStream, errpos := 4 } ∧
    after (exec .decode stateV44) = some { stateV44 with statusErr := some .malformedStream, errpos := 1 } ∧
    gives (exec .decode { State.reset with tm := [(0, 0x40010002), (1, 0x80000061)], bb := [(0, 0x40)], blen := 2 })
      (fun t => t.statusErr == some .badTree && t.errpos == 1) = true ∧
    gives (exec .decode { State.reset with tm := [(0, 0x40000001), (1, 0x80000062)], bb := [(0, 0x20)], blen := 3 })
      (fun t => t.slen == 1 && t.sbByte 0 == 0x62) = true := by decide +kernel

/-! ### Host accesses (V70 to V73) -/

/-- V70: the masks. -/
theorem test_masks :
    gives (writeLoc State.reset (.tm 0) 0xFFFFFFFF) (fun t => readLoc t (.tm 0) == 0xC1FF01FF) = true ∧
    gives (writeLoc State.reset (.ct 0 0) 0x000001FF) (fun t => readLoc t (.ct 0 0) == 0x000000FF) = true ∧
    gives (writeLoc State.reset (.ct 0 1) 0xFFFFFFFF) (fun t => readLoc t (.ct 0 1) == 0xFFFFFFFF) = true ∧
    gives (writeLoc State.reset .ctrl 0xFFFFFFFE) (fun t => readLoc t .ctrl == 0) = true ∧
    gives (writeLoc State.reset .ctrl 0xFFFFFFFF) (fun t => readLoc t .ctrl == 1) = true := by decide +kernel

/-- V70: the read-only registers and CMD. -/
theorem test_readOnly :
    after (writeLoc stateV62 .status 0xFFFFFFFF) = some stateV62 ∧
    after (writeLoc stateV62 .errpos 1) = some stateV62 ∧ after (writeLoc stateV62 .symcap 0) = some stateV62 ∧
    readLoc stateV62 .symcap = 64 ∧ readLoc stateV62 .status = 7 ∧ readLoc stateV62 .cmd = 0 := by decide +kernel

/-- V71: BusError, no effect; the step of such an operation ends in the fault. -/
theorem test_busError :
    [(0x20, 4), (0x4024, 4), (0x6, 4), (0x30000, 4), (0x10040, 4), (0x10000, 1), (0x10, 2)].map
        (fun a => answer (serve (.read a.1 a.2) stateV62)) =
      List.replicate 7 (some (stateV62, .busError)) ∧
    answer (serve (.write 0x4024 4 1) stateV62) = some (stateV62, .busError) ∧
    after (step (stateV62.withOp (.read 0x20 4))) = none := by decide +kernel

/-- V72 and V73: the byte order, and a word write replaces all four bytes. -/
theorem test_byteOrder :
    gives (writeLoc State.reset (.sb 1) 0x00676665)
      (fun t => [4, 5, 6, 7].map t.sbByte == [0x65, 0x66, 0x67, 0x00]) = true ∧
    bufferWord [(0, 0x4E), (1, 0x5D), (2, 0xC0)] 0 = 0x00C05D4E ∧
    gives (writeLoc stateV23 (.sb 0) 0x0000007A) (fun t => [0, 1, 2, 3].map t.sbByte == [0x7A, 0, 0, 0]) = true := by
  decide +kernel

/-- The offsets printed in V1, V3, V8 and P1. -/
theorem test_offsets :
    (Loc.ct 0x61 1).offset = 0x05844 ∧ (Loc.ct 0x67 0).offset = 0x059C0 ∧ (Loc.ct 0x05 0).offset = 0x04140 ∧
    (Loc.tm 12).offset = 0x00830 ∧ (Loc.sb 1).offset = 0x10004 ∧ (Loc.bb 4).offset = 0x20010 := by decide

/-! ### Host preparation (V1, V3, V4, V9) -/

/-- V1, V2, V3 and V9: the trees. -/
theorem test_buildTree :
    (buildTree (frequencyCount [0x61, 0x61, 0x61, 0x61])).toOption = some treeV1 ∧
    (buildTree (frequencyCount [0x61])).toOption = some (.node 2 .synth (.leaf 0x61 1)) ∧
    (buildTree (frequencyCount abcdefg)).toOption = some treeV3 ∧
    (buildTree (frequencyCount [])).toOption = none := by decide +kernel

/-- V4: the codes and the tree's words of "abracadabra". -/
theorem test_abracadabra :
    (buildTree (frequencyCount [0x61, 0x62, 0x72, 0x61, 0x63, 0x61, 0x64, 0x61, 0x62, 0x72, 0x61])).toOption.map
        (fun t => (tmImage t, [0x61, 0x63, 0x64, 0x62, 0x72].map t.codeOf)) =
      some ([0x40010002, 0x80000061, 0x40030006, 0x40040005, 0x80000063, 0x80000064, 0x40070008, 0x80000062,
          0x80000072],
        [some [false], some [true, false, false], some [true, false, true], some [true, true, false],
          some [true, true, true]]) := by decide +kernel

/-- V3: the words of the tree, and of a code's entry. -/
theorem test_images :
    tmImage treeV3 = tmV3.map Prod.snd ∧ (ctEntry [false, true, true]).take 2 = [3, 0x60000000] := by
  decide +kernel

/-! ### Witnesses: the hypotheses of each statement can be met (its clauses at the edges of their ranges) -/

/-- IllegalWordsRaiseBadCommand: both classes at their lowest and highest words, a legal word, no error latched. -/
theorem witness_illegalWords :
    7 ≤ (0x07000000 : Word).toNat / 2 ^ 24 ∧ 7 ≤ (0xFFFFFFFF : Word).toNat / 2 ^ 24 ∧
    (0x06FFFFFF : Word).toNat / 2 ^ 24 ≤ 6 ∧ (0x06FFFFFF : Word).toNat % 2 ^ 24 ≠ 0 ∧
    (0x00000001 : Word).toNat % 2 ^ 24 ≠ 0 ∧ (0x06000000 : Word).toNat % 2 ^ 24 = 0 ∧
    State.reset.statusErr = none := by decide

/-- DecodeOfEncode. -/
theorem witness_wf : Instr.srst.wf = true ∧ Instr.nop.wf = true := by decide

/-- StepRunsDecodedInstruction, and the first case of LatchedErrorPersists's exceptions. -/
theorem witness_stepRuns :
    (stateV62.withOp (.command .srst)).pending = .write 0x00000 4 0x06000000 :: [] ∧
    decode 0x06000000 = .ok .srst := ⟨rfl, rfl⟩

/-- LatchedErrorDropsCommands: a latched error, a dropped word, and a word that answers a next state. -/
theorem witness_latched :
    stateV62.statusErr = some .badCommand ∧ (0x07000000 : Word) ≠ 0x03000000 ∧ (0x07000000 : Word) ≠ 0x06000000 ∧
    present 0x03000000 stateV62 = .next stateV3 ∧ present 0x00000000 stateV62 = .next stateV62 ∧
    Loc.slen ≠ .cmd ∧ Loc.slen ≠ .status ∧ Loc.slen ≠ .errpos := ⟨rfl, by decide, by decide, rfl, rfl, by decide⟩

/-- LatchedErrorPersists: a step that keeps the error and one that does not. -/
theorem witness_latchedSteps :
    step (stateV62.withOp (.wr .slen 5)) = .next { stateV62 with slen := 5 } ∧
    step (stateV62.withOp .hardReset) = .next State.reset := ⟨rfl, rfl⟩

/-- RaisingCommandChangesOnlyStatus and ClrerrClearsErrorOnly: a command that raises, from a state with no error. -/
theorem witness_raising :
    stateV30.statusErr = none ∧ stateV30.errOk ∧
    after (present 0x01000000 stateV30) = some { stateV30 with statusErr := some .lookupError, errpos := 2 } ∧
    after (exec .encode stateV30) = some { stateV30 with statusErr := some .lookupError, errpos := 2 } := by
  decide +kernel

/-- StatusReadsProducedCodes: with and without an error. -/
theorem witness_errOk : State.reset.errOk ∧ stateV62.errOk := by decide +kernel

/-- HostReadValues, HostWriteEffects, ReadAfterWrite: the last location of each array, and the first beyond it. -/
theorem witness_mapped :
    stateV30.Inv ∧ (Loc.ct 255 8).mapped stateV30.params = true ∧ (Loc.ct 255 9).mapped stateV30.params = false ∧
    (Loc.tm 511).mapped stateV30.params = true ∧ (Loc.sb 15).mapped stateV30.params = true ∧
    (Loc.sb 16).mapped stateV30.params = false ∧ (Loc.bb 15).mapped stateV30.params = true ∧
    (Loc.bb 16).mapped stateV30.params = false ∧ Loc.cmd.mapped stateV30.params = true ∧
    Loc.bb 15 ≠ .cmd := by decide +kernel

/-- AcceptedAccesses: both sides at the edges. -/
theorem witness_accepted :
    accepted Params.standard 0x1003C 4 = some (.sb 15) ∧ accepted Params.standard 0x10040 4 = none ∧
    accepted Params.standard 0x7FE0 4 = some (.ct 255 8) ∧ accepted Params.standard 0x7FE4 4 = none ∧
    accepted Params.standard 0x2FFFC 4 = none ∧ accepted ⟨0, 16383, 0⟩ 0x2FFFC 4 = some (.bb 16383) := by decide

/-- OtherAccessesAnswerBusError: an accepted access, and one for each reason not to accept it. -/
theorem witness_busError :
    (Loc.bb 15).mapped State.reset.params = true ∧ (Loc.bb 15).offset = 0x2003C ∧
    (1 : Nat) ≠ 4 ∧ 0x6 % 4 ≠ 0 ∧ 0x30000 ≤ 0x30000 ∧
    ∀ loc : Loc, loc.mapped State.reset.params = true → loc.offset ≠ 0x20 := by
  refine ⟨by decide, by decide, by decide, by decide, by decide, fun loc h e => ?_⟩
  cases loc <;> simp [Loc.offset] at e <;> omega

/-- WritesAreIdempotent: a write of a word that takes cells off the list. -/
theorem witness_idempotent :
    stateV30.memWf ∧ (Loc.bb 0).mapped stateV30.params = true ∧ Loc.bb 0 ≠ .cmd ∧
    answer (serve (.write 0x20000 4 0) stateV30) = some ({ stateV30 with bb := [] }, .ok) := by decide +kernel

/-- StepTakesOneOperation: a waiting step, an accepted read, and a step that is no read. -/
theorem witness_stepTakes :
    step State.reset = .next State.reset ∧ accepted stateV62.params 0x8 4 = some .status ∧
    (stateV62.withOp (.rd .status)).pending = .read 0x8 4 :: [] ∧
    step (stateV62.withOp (.wr .slen 5)) = .next { stateV62 with slen := 5 } ∧
    step (stateV62.withOp (.rd .status)) = .next { stateV62 with reads := [7] } := ⟨rfl, rfl, rfl, rfl, rfl⟩

/-- WindowAddresses: both ends of the window of the second admissible BASE. -/
theorem witness_window :
    offsetOfAddress ⟨15, 15, 1⟩ 0x40000 = some 0 ∧ offsetOfAddress ⟨15, 15, 1⟩ 0x6FFFF = some 0x2FFFF ∧
    offsetOfAddress ⟨15, 15, 1⟩ 0x70000 = none ∧ offsetOfAddress ⟨15, 15, 1⟩ 0x3FFFF = none := by decide

/-- HardResetAndSrst. -/
theorem witness_hardReset : (stateV62.withOp .hardReset).pending = .hardReset :: [] := rfl

/-- ResetStateCommands: the least and the greatest length of each clause. -/
theorem witness_resetState :
    State.reset = State.resetFor Params.standard ∧ 1 ≤ (1 : Word).toNat ∧
    (64 : Word).toNat ≤ Params.standard.symCap ∧ (512 : Word).toNat ≤ 8 * Params.standard.bbBytes ∧
    Loc.slen.mapped Params.standard = true ∧ Loc.slen ≠ .symcap ∧ Loc.slen ≠ .bbcap := by decide

/-- StepKeepsInvariant and CapacitiesNeverChange: a step from a state of the invariant that fills a memory. -/
theorem witness_invariantStep :
    (stateV28.withOp (.command .encode)).Inv ∧
    after (step (stateV28.withOp (.command .encode))) =
      some { stateV28 with blen := 4, bb := [(0, 0xF0), (1, 0xEE)] } := by decide +kernel

/-- MemoriesChangeOnlyBy: a step that changes each of the five. -/
theorem witness_memoriesChange :
    gives (step (stateV3.withOp (.wr (.ct 0 8) 1))) (fun t => t.ct != stateV3.ct) = true ∧
    gives (step (stateV3.withOp (.command .clrtm))) (fun t => t.tm != stateV3.tm) = true ∧
    gives (step ({ stateV44 with bb := [(0, 0xF0)] }.withOp (.command .decode))) (fun t => t.sb != stateV44.sb) =
      true ∧
    gives (step (stateV28.withOp (.command .encode))) (fun t => t.bb != stateV28.bb) = true ∧
    gives (step (stateV28.withOp (.wr (.sb 15) 1))) (fun t => t.sb != stateV28.sb) = true ∧
    4 * 15 < stateV28.params.symCap ∧
    gives (step (stateV28.withOp (.wr (.bb 15) 1))) (fun t => t.bb != stateV28.bb) = true ∧
    4 * 15 < stateV28.params.bbBytes ∧
    gives (step (stateV28.withOp (.wr .ctrl 1))) (fun t => t.ctrlFmt != stateV28.ctrlFmt) = true := by
  decide +kernel

/-- ClrctClearsCodeTable and ClrtmClearsTreeMemory: without and with a latched error. -/
theorem witness_clear : stateV3.statusErr = none ∧ stateV62.statusErr ≠ none := by decide

/-- EncodePacksTheCodes, EncodeGuarantees: both formats, and the empty text. -/
theorem witness_encodable :
    stateV28.statusErr = none ∧ stateV28.encodable ∧ stateV23.encodable ∧
    { stateV23 with ctrlFmt := .character }.encodable ∧ State.reset.encodable ∧
    gives (exec .encode stateV23) (fun t => t.statusErr == none) = true ∧
    gives (exec .encode { stateV23 with ctrlFmt := .character }) (fun t => t.statusErr == none) = true ∧
    gives (exec .encode { stateV23 with bb := [(0, 0x55)], tm := [] }) (fun t => t.blen == 20) = true := by
  decide +kernel

/-- V33's second text in a block of four bytes: 'a' takes 3 characters, 'b' would make 6. -/
def stateV33 : State :=
  { State.resetFor smallParams with
    ctrlFmt := .character, ct := ctV3, sb := [(0, 0x61), (1, 0x62)], slen := 2 }

/-- EncodeErrorsInOrder: each clause (V34 with SLEN = 17 and 0xFFFFFFFF, V30, V33). -/
theorem witness_encodeErrors :
    State.reset.params.symCap < (65 : Word).toNat ∧ smallParams.symCap < (17 : Word).toNat ∧
    smallParams.symCap < (0xFFFFFFFF : Word).toNat ∧
    (2 < stateV30.slen.toNat ∧ stateV30.slen.toNat ≤ stateV30.params.symCap ∧
      (∀ j < 2, stateV30.ctLen (stateV30.sbByte j) ≠ 0) ∧
      stateV30.lensFrom 0 2 ≤ bitCap stateV30.params stateV30.ctrlFmt ∧ stateV30.ctLen (stateV30.sbByte 2) = 0) ∧
    (1 < stateV33.slen.toNat ∧ stateV33.slen.toNat ≤ stateV33.params.symCap ∧
      (∀ j < 1, stateV33.ctLen (stateV33.sbByte j) ≠ 0) ∧
      stateV33.lensFrom 0 1 ≤ bitCap stateV33.params stateV33.ctrlFmt ∧
      stateV33.ctLen (stateV33.sbByte 1) ≠ 0 ∧
      bitCap stateV33.params stateV33.ctrlFmt < stateV33.lensFrom 0 1 + stateV33.ctLen (stateV33.sbByte 1)) := by
  decide +kernel

/-- V29 against V21: another BB, another TM, code bits beyond LEN. -/
def stateV29 : State := { stateV28 with ct := [(0x610, 1), (0x611, 0xFFFFFFFF)], tm := tmV3, bb := [] }

/-- EncodeReadsOnlyItsInputs: two states that differ where it says they may. -/
theorem witness_encodeInputs :
    stateV28.statusErr = none ∧ stateV29.statusErr = none ∧ stateV29.params = stateV28.params ∧
    stateV29.ctrlFmt = stateV28.ctrlFmt ∧ stateV29.slen = stateV28.slen ∧
    (∀ i < stateV28.slen.toNat, stateV29.sbByte i = stateV28.sbByte i) ∧
    (∀ i < stateV28.slen.toNat, stateV29.ctLen (stateV28.sbByte i) = stateV28.ctLen (stateV28.sbByte i) ∧
      stateV29.codeBits (stateV28.sbByte i) = stateV28.codeBits (stateV28.sbByte i)) ∧
    gives (exec .encode stateV28) (fun t => t.statusErr == none && t.blen == 4) = true := by decide +kernel

/-- DecodeEmptyStream (V46). -/
theorem witness_emptyStream : { State.reset with slen := 5 }.statusErr = none ∧ State.reset.blen = 0 := by decide

/-- DecodeOverlongStream at the least such length in both formats (V49). -/
theorem witness_overlong :
    bitCap smallParams .packed < (33 : Word).toNat ∧ bitCap smallParams .character < (5 : Word).toNat ∧
    bitCap smallParams .packed = 32 ∧ (State.resetFor smallParams).statusErr = none := by decide

/-- WalkerStepCases: each case. -/
theorem witness_walker :
    stateV41.bitChar .character 2 = .invalid ∧ stateV41.bitChar .character 0 = .zero ∧
    stateV41.bitChar .character 1 = .one ∧ nodeTag (stateV41.tmWord 2) ≠ .internal ∧
    nodeTag (stateV41.tmWord 0) = .internal ∧ nodeTag (stateV41.tmWord 1) = .internal ∧
    nodeLeft (stateV41.tmWord 0) = 1 ∧ nodeTag (stateV41.tmWord (nodeLeft (stateV41.tmWord 1))) = .leaf ∧
    nodeTag (stateV44.tmWord (nodeLeft (stateV44.tmWord 0))) = .synth ∧
    nodeTag (State.reset.tmWord 511) = .empty ∧ (List.replicate 64 (0 : Byte)).length = stateV41.params.symCap := by
  decide +kernel

/-- V43's second stream: "01000", which is 'a' then 'g'. -/
def stateV43b : State := { stateV43 with bb := stateV43.bb ++ [(4, 0x30)], blen := 5 }

/-- DecodeFollowsTree: the tree of V3 and the stream of V43. -/
theorem witness_followsTree :
    stateV43b.statusErr = none ∧ treeV3.layoutIn stateV43b ∧
    (∀ y ∈ [(0x61 : Byte), 0x67], y ∈ treeV3.symbols) ∧
    [(0x61 : Byte), 0x67].length ≤ stateV43b.params.symCap ∧
    stateV43b.blen.toNat ≤ bitCap stateV43b.params stateV43b.ctrlFmt ∧
    stateV43b.streamIs (treeV3.codesOf [0x61, 0x67]) := by decide +kernel

/-- TruncatedStreamIsMalformed: V43's "0100", 'a' and the first bit of 'g'. -/
theorem witness_truncated :
    stateV43.statusErr = none ∧ treeV3.layoutIn stateV43 ∧ (∀ z ∈ [(0x61 : Byte)], z ∈ treeV3.symbols) ∧
    [(0x61 : Byte)].length ≤ stateV43.params.symCap ∧ treeV3.codeOf 0x67 = some ([false] ++ [false]) ∧
    [false] ≠ [] ∧ stateV43.blen.toNat ≤ bitCap stateV43.params stateV43.ctrlFmt ∧
    stateV43.streamIs (treeV3.codesOf [0x61] ++ [false]) := by decide +kernel

/-- V51 (a): the left child of the root is the root itself; bits 001. -/
def stateV51 : State :=
  { State.reset with tm := [(0, 0x40000001), (1, 0x80000062)], bb := [(0, 0x20)], blen := 3 }

/-- DecodeIsTheWalk: a walk that raises (V44), one that ends inside a code (V43), and one over a cycle (V51). -/
theorem witness_walk :
    walkFrom stateV44 stateV44.blen.toNat 0 ⟨0, []⟩ = .error ⟨.malformedStream, 1⟩ ∧
    walkFrom stateV43 stateV43.blen.toNat 0 ⟨0, []⟩ = .ok ⟨1, [0x61]⟩ ∧
    walkFrom stateV51 stateV51.blen.toNat 0 ⟨0, []⟩ = .ok ⟨0, [0x62]⟩ ∧
    stateV51.statusErr = none ∧ stateV51.blen.toNat ≤ bitCap stateV51.params stateV51.ctrlFmt :=
  ⟨rfl, rfl, rfl, rfl, by decide⟩

/-- InvalidCharacterNeverSkipped (V41), also at the last position of the stream. -/
theorem witness_invalidCharacter :
    stateV41.statusErr = none ∧ stateV41.ctrlFmt = .character ∧ stateV41.blen.toNat ≤ stateV41.params.bbBytes ∧
    2 < stateV41.blen.toNat ∧ stateV41.bbByte 2 ≠ 0x30 ∧ stateV41.bbByte 2 ≠ 0x31 := by decide +kernel

/-- DecodeRootNotInternal (V48), at the least and the greatest length. -/
theorem witness_rootNotInternal :
    nodeTag ({ State.reset with tm := [(0, 0x80000061)], blen := 1 }.tmWord 0) ≠ .internal ∧
    1 ≤ (1 : Word).toNat ∧ (512 : Word).toNat ≤ bitCap State.reset.params .packed ∧
    { State.reset with tm := [(0, 0x80000061)], blen := 1 }.bitChar .packed 0 ≠ .invalid := by decide +kernel

/-- DecodeErrorsInOrder: InvalidBit, an error of the tree inside the stream, the end of the stream, and the length. -/
theorem witness_decodeErrors :
    gives (exec .decode stateV41) (fun t => t.statusErr == some .invalidBit && t.errpos == 2) = true ∧
    gives (exec .decode stateV44) (fun t => t.statusErr == some .malformedStream && t.errpos == 1) = true ∧
    gives (exec .decode stateV43) (fun t => t.statusErr == some .malformedStream && t.errpos == 4) = true ∧
    gives (exec .decode { State.resetFor smallParams with blen := 33 })
      (fun t => t.statusErr == some .overflow && t.errpos == 32) = true := by decide +kernel

/-- V47 against V40: the pad bits, the later bytes, CT, SB and SLEN differ. -/
def stateV47 : State := { stateV1 with ct := [], bb := [(0, 0xFF), (1, 0xFF)], blen := 4 }

/-- V40's stream of V21. -/
def stateV40 : State := { stateV1 with bb := [(0, 0xF0)], blen := 4, sb := [(0, 0x55)], slen := 9 }

/-- DecodeReadsOnlyItsInputs: two states that differ where it says they may. -/
theorem witness_decodeInputs :
    stateV40.statusErr = none ∧ stateV47.statusErr = none ∧ stateV47.params = stateV40.params ∧
    stateV47.ctrlFmt = stateV40.ctrlFmt ∧ stateV47.blen = stateV40.blen ∧
    (∀ p < stateV40.blen.toNat, stateV47.bitChar .packed p = stateV40.bitChar .packed p) ∧
    stateV47.tm = stateV40.tm ∧
    gives (exec .decode stateV40) (fun t => t.slen == 4 && t.sbByte 3 == 0x61) = true := by decide +kernel

/-- RoundTrip: the tables of V1, which are consistent, and the text of V21. -/
theorem witness_roundTrip :
    stateV28.statusErr = none ∧ ConsistentWith stateV28 treeV1 ∧ stateV28.slen.toNat ≤ stateV28.params.symCap ∧
    (∀ i < stateV28.slen.toNat, stateV28.sbByte i ∈ treeV1.symbols) ∧
    stateV28.lensFrom 0 stateV28.slen.toNat ≤ bitCap stateV28.params stateV28.ctrlFmt :=
  ⟨rfl, ⟨by decide +kernel, by decide +kernel, List.all_eq_true.mp (by decide +kernel)⟩, by decide +kernel⟩

/-- PackedBitsReadBack: a position inside, and both kinds of byte. -/
theorem witness_packedBits :
    2 < [true, false, true].length ∧ BitChar.ofByte 0x78 = .invalid ∧ BitChar.ofByte 0x31 = .one := by decide

/-- CodeEntryReadsBack: the shortest and the longest code (V1, V35). -/
theorem witness_codeEntry :
    (∀ k ≤ 8, stateV1.ctWord 0x61 k = (ctEntry [true]).getD k 0) ∧
    (∀ k ≤ 8, { State.reset with ct := [(0x410, 255), (0x411, 0xFFFFFFFF), (0x412, 0xFFFFFFFF), (0x413, 0xFFFFFFFF),
        (0x414, 0xFFFFFFFF), (0x415, 0xFFFFFFFF), (0x416, 0xFFFFFFFF), (0x417, 0xFFFFFFFF),
        (0x418, 0xFFFFFFFE)] }.ctWord 0x41 k = (ctEntry (List.replicate 255 true)).getD k 0) := by decide +kernel

/-- BuildTreeRejectsEmpty: both sides. -/
theorem witness_emptyTable : frequencyCount [] 0x61 = 0 ∧ frequencyCount [0x61] 0x61 ≠ 0 := by decide

/-- BuiltTreeInvariants: one symbol, and seven. -/
theorem witness_builtTree :
    (buildTree (frequencyCount [0x61, 0x61, 0x61, 0x61])).toOption = some treeV1 ∧
    1 = (allSymbols.filter fun y => frequencyCount [0x61, 0x61, 0x61, 0x61] y != 0).length ∧
    (buildTree (frequencyCount abcdefg)).toOption = some treeV3 ∧
    7 = (allSymbols.filter fun y => frequencyCount abcdefg y != 0).length := by decide +kernel

/-- CodesArePrefixFree: two symbols of V3, and V1's single one. -/
theorem witness_prefixFree :
    treeV3.isNode = true ∧ (0x67 : Byte) ≠ 0x61 ∧ treeV3.codeOf 0x67 = some [false, false] ∧
    treeV3.codeOf 0x61 = some [false, true, false] ∧ treeV1.isNode = true ∧ treeV1.codeOf 0x61 = some [true] ∧
    (buildTree (frequencyCount abcdefg)).toOption = some treeV3 := by decide +kernel

/-- ImagesAreConsistent: V1's tree and the state that holds its images. -/
theorem witness_images :
    treeV1.symbols.Nodup ∧ treeV1.size ≤ 511 ∧ treeV1.depth ≤ 255 ∧ codeTable treeV1 = some [(0x61, [true])] ∧
    (∀ i < 512, stateV1.tmWord (BitVec.ofNat 9 i) = (tmImage treeV1).getD i 0) ∧
    ∀ y ∈ allSymbols, ((List.range 9).all fun k =>
      stateV1.ctWord y k == (ctImage [(0x61, [true])] y).getD k 0) = true :=
  ⟨by decide, by decide, by decide, rfl, by decide +kernel, List.all_eq_true.mp (by decide +kernel)⟩

/-- HostProgramsFaultOnBusError: a run with a BusError and one without, and the least overlong stream and data. -/
theorem witness_busErrorProgram :
    runOps [.read 0x20 4] stateV62 = .next (stateV62, [.busError]) ∧ faultedRun [.busError] = true ∧
    runOps [.rd .status] stateV62 = .next (stateV62, [.data 7]) ∧ faultedRun [.data 7] = false ∧
    State.reset.params.bbBytes < (List.replicate 65 (0 : Byte)).length ∧
    State.reset.params.symCap < (List.replicate 65 (0x61 : Byte)).length ∧ State.reset.params.symCap < 65536 :=
  ⟨rfl, rfl, rfl, rfl, by decide, by decide, by decide⟩

/-- R136: decompress of eight bytes with n = 0 in a block of four draws a BusError at BB's second word. -/
theorem test_decompress_busError :
    (match decompress ⟨0, List.replicate 8 0, .packed, treeV1⟩ (State.resetFor smallParams) with
      | .fault f => some f
      | .refused _ => none
      | .next _ => none) = some (.busError (.write 0x20004 4 0)) := by decide +kernel

/-- CompressThenDecompress: the data of V1, in both formats. -/
theorem witness_compress :
    State.reset.statusErr = none ∧ stateV3.statusErr = none ∧ stateV3.params = State.reset.params ∧
    [(0x61 : Byte), 0x61, 0x61, 0x61] ≠ [] ∧ [(0x61 : Byte), 0x61, 0x61, 0x61].length ≤ State.reset.params.symCap ∧
    (buildTree (frequencyCount [0x61, 0x61, 0x61, 0x61])).toOption = some treeV1 ∧
    (treeV1.codesOf [0x61, 0x61, 0x61, 0x61]).length ≤ bitCap State.reset.params .packed ∧
    (treeV1.codesOf [0x61, 0x61, 0x61, 0x61]).length ≤ bitCap State.reset.params .character := by decide +kernel

end Sys2Proof.Tests
end

/-!
PROOFS. The scope of a step (spec/00_scope.md R6, R7): one host operation is taken, and only a read adds to the values
read.
-/

namespace Sys2Proof.Machine

/-! ### What no command and no write touches: the parameters and the host's two lists (R12, R152; log 1, 2, 3) -/

/-- Commands change the block only, by the list of their effects. -/
theorem exec_keeps_host {i : Instr} {s t : State} (h : exec i s = .next t) :
    t.params = s.params ∧ t.pending = s.pending ∧ t.reads = s.reads := by
  rcases exec_cases h with rfl | ⟨_, _, r, _, rfl⟩ | ⟨_, _, bits, _, rfl⟩ | ⟨_, _, r, _, rfl⟩ | ⟨_, _, out, _, rfl⟩ |
    ⟨_, rfl⟩ | ⟨_, _, rfl⟩ | ⟨_, _, rfl⟩ | ⟨_, rfl⟩ <;> simp

/-- A dropped word, an illegal word and a command all leave the host's side alone. -/
theorem present_keeps_host {w : Word} {s t : State} (h : present w s = .next t) :
    t.params = s.params ∧ t.pending = s.pending ∧ t.reads = s.reads := by
  rcases present_cases w s with ⟨_, _, _, hp⟩ | ⟨_, _, _, hp⟩ | ⟨i, _, hp⟩ <;> rw [hp] at h
  · cases h; simp
  · cases h; simp
  · exact exec_keeps_host h

/-- Only a write to CMD runs a command; every other write is to the block's own state. -/
theorem writeLoc_keeps_host {loc : Loc} {v : Word} {s t : State} (h : writeLoc s loc v = .next t) :
    t.params = s.params ∧ t.pending = s.pending ∧ t.reads = s.reads := by
  cases loc with
  | cmd => exact present_keeps_host h
  | _ => simp only [writeLoc] at h; cases h; simp

/-- What a location reads does not depend on the operations still to come. -/
@[simp] theorem readLoc_pending (s : State) (ops : List HostOp) (loc : Loc) :
    readLoc { s with pending := ops } loc = readLoc s loc := by
  cases loc <;> rfl

/-- Settles O17, by the cases of a step: waiting, a hard reset, an accepted read, an accepted write. -/
theorem stepTakesOneOperation : Obligations.StepTakesOneOperation := by
  unfold Obligations.StepTakesOneOperation
  intro s t h
  rcases step_cases h with ⟨hp, rfl⟩ |
    ⟨op, rest, hp, ⟨rfl, rfl⟩ | ⟨off, size, loc, rfl, ha, rfl⟩ | ⟨off, size, v, loc, rfl, ha, hw⟩⟩
  · simp [hp]
  · simp [hp]
  · refine ⟨by simp [hp], by simp [hp], fun off' size' loc' rest' hp' ha' => ?_,
      fun hno => absurd ha (hno off size loc rest hp)⟩
    obtain ⟨⟨rfl, rfl⟩, rfl⟩ : (off = off' ∧ size = size') ∧ rest = rest' := by simpa using hp.symm.trans hp'
    obtain rfl : loc = loc' := Option.some.inj (ha.symm.trans ha')
    simp
  · obtain ⟨_, hpend, hreads⟩ := writeLoc_keeps_host hw
    simp [hp, hpend, hreads]

end Sys2Proof.Machine

/-!
PROOFS. The state (spec/10_state.md): the invariant of the reachable states at reset and over every step, the resets
(R29), and the capacities (R20, R21).
-/

namespace Sys2Proof.Machine

/-! ### The kinds the two coding commands raise (R95, R106): never InvalidInput (R133) -/

/-- ENCODE raises LookupError and Overflow only. -/
theorem encBits_error_kind {s : State} {r : Raised} (h : encBits s = .error r) :
    r.kind = .lookupError ∨ r.kind = .overflow := by
  unfold encBits at h
  split at h
  · cases h; exact .inr rfl
  · rcases encodeFrom_cases s (bitCap s.params s.ctrlFmt) s.slen.toNat 0 [] (Nat.zero_le _) with
      ⟨he, _, _⟩ | ⟨j, _, _, _, ⟨_, he⟩ | ⟨_, _, he⟩⟩ <;> rw [he] at h <;> cases h
    · exact .inl rfl
    · exact .inr rfl

/-- DECODE raises InvalidBit, Overflow, MalformedStream and BadTree only. -/
theorem decodedSymbols_error_kind {s : State} {r : Raised} (h : decodedSymbols s = .error r) :
    r.kind = .invalidBit ∨ r.kind = .overflow ∨ r.kind = .malformedStream ∨ r.kind = .badTree := by
  unfold decodedSymbols at h
  split at h
  · cases h; exact .inr (.inl rfl)
  · split at h
    · rename_i hw
      cases h
      obtain ⟨_, _, _, _, ⟨hk, _⟩ | ⟨_, hk⟩⟩ := walkFrom_error hw
      · exact .inl hk
      · exact .inr hk
    · split at h <;> cases h
      exact .inr (.inr (.inl rfl))

/-! ### The two commits stay inside their buffers (R94, R105, R108) -/

/-- The bits ENCODE commits fit BB under either format (R95). -/
theorem State.inv_commitEncode {s : State} (h : s.Inv) {bits : List Bool} (hb : encBits s = .ok bits) :
    (commitEncode s bits).Inv := by
  obtain ⟨⟨_, _, hcap⟩, rfl⟩ := encodable_of_encBits hb
  have hfit : 0 + (packedBytes (s.codesFrom 0 s.slen.toNat) s.ctrlFmt).length ≤ s.params.bbBytes := by
    rw [Nat.zero_add, length_packedBytes, State.length_codesFrom]
    exact streamBytes_le hcap
  exact State.inv_putBb h hfit

/-- The walker never emits beyond SB (R103). -/
theorem State.inv_commitDecode {s : State} (h : s.Inv) {out : List Byte} (ho : decodedSymbols s = .ok out) :
    (commitDecode s out).Inv := by
  obtain ⟨_, hw⟩ := decodedSymbols_ok ho
  obtain ⟨_, _, hfit⟩ := walkFrom_ok hw (Nat.zero_le _)
  exact State.inv_putSb h ((Nat.zero_add _).trans_le hfit)

/-! ### The invariant over commands, writes and steps -/

/-- Every command keeps the invariant, by the list of their effects. -/
theorem exec_keeps_inv {i : Instr} {s t : State} (hs : s.Inv) (h : exec i s = .next t) : t.Inv := by
  rcases exec_cases h with rfl | ⟨_, _, r, hr, rfl⟩ | ⟨_, _, bits, hb, rfl⟩ | ⟨_, _, r, hr, rfl⟩ |
    ⟨_, _, out, ho, rfl⟩ | ⟨_, rfl⟩ | ⟨_, _, rfl⟩ | ⟨_, _, rfl⟩ | ⟨_, rfl⟩
  · exact hs
  · exact State.inv_raise hs (by rcases encBits_error_kind hr with hk | hk <;> simp [hk]) r.pos
  · exact State.inv_commitEncode hs hb
  · exact State.inv_raise hs (by rcases decodedSymbols_error_kind hr with hk | hk | hk | hk <;> simp [hk]) r.pos
  · exact State.inv_commitDecode hs ho
  · exact State.inv_clearErr hs
  · exact State.inv_clearCt hs
  · exact State.inv_clearTm hs
  · exact s.inv_resetBlock

/-- A dropped word, an illegal word and a command all keep the invariant. -/
theorem present_keeps_inv {w : Word} {s t : State} (hs : s.Inv) (h : present w s = .next t) : t.Inv := by
  rcases present_cases w s with ⟨_, _, _, hp⟩ | ⟨_, _, _, hp⟩ | ⟨i, _, hp⟩ <;> rw [hp] at h
  · cases h; exact hs
  · cases h; exact State.inv_raise hs (by simp) w
  · exact exec_keeps_inv hs h

/-- A word of SB or BB that begins below the capacity ends below it, because capacities are multiples of 4 (R5). -/
theorem writeLoc_keeps_inv {loc : Loc} {v : Word} {s t : State} (hs : s.Inv) (hm : loc.mapped s.params = true)
    (h : writeLoc s loc v = .next t) : t.Inv := by
  cases loc with
  | cmd => exact present_keeps_inv hs h
  | ctrl | status | errpos | slen | blen | symcap | bbcap => cases h; exact hs
  | tm i => cases h; exact State.inv_setTmWord hs i v
  | ct sym k => cases h; exact State.inv_setCtWord hs sym (of_decide_eq_true hm) v
  | sb j =>
    cases h
    have hj : 4 * j < s.params.symCap := of_decide_eq_true hm
    have h4 := s.params.symCap_mod
    exact State.inv_putSb hs (show 4 * j + 4 ≤ s.params.symCap by omega)
  | bb j =>
    cases h
    have hj : 4 * j < s.params.bbBytes := of_decide_eq_true hm
    have h4 := s.params.bbBytes_mod
    exact State.inv_putBb hs (show 4 * j + 4 ≤ s.params.bbBytes by omega)

/-- Settles O24, by the cases of a step. The host's two lists, which every step may change, stand in no clause of the
invariant. -/
theorem stepKeepsInvariant : Obligations.StepKeepsInvariant := by
  unfold Obligations.StepKeepsInvariant
  intro s t hs h
  rcases step_cases h with ⟨_, rfl⟩ |
    ⟨op, rest, _, ⟨_, rfl⟩ | ⟨off, size, loc, _, _, rfl⟩ | ⟨off, size, v, loc, _, ha, hw⟩⟩
  · exact hs
  · exact State.inv_resetBlock _
  · exact hs
  · exact writeLoc_keeps_inv (s := { s with pending := rest }) hs (accepted_mapped ha) hw

/-- The reset state is what a reset of the block makes of itself. -/
theorem State.inv_resetFor (p : Params) : (State.resetFor p).Inv := State.inv_resetBlock (State.resetFor p)

/-- Settles O23: the machine's reset state is the one of the standard parameters. -/
theorem invariantAtReset : Obligations.InvariantAtReset :=
  ⟨State.inv_resetFor Params.standard, State.inv_resetFor⟩

/-! ### The capacities (R20, R21) -/

/-- Every step keeps the parameters. -/
theorem step_keeps_params {s t : State} (h : step s = .next t) : t.params = s.params := by
  rcases step_cases h with ⟨_, rfl⟩ |
    ⟨op, rest, _, ⟨_, rfl⟩ | ⟨off, size, loc, _, _, rfl⟩ | ⟨off, size, v, loc, _, _, hw⟩⟩
  · rfl
  · rfl
  · rfl
  · exact (writeLoc_keeps_host hw).1

@[simp] theorem accepted_symcap (p : Params) : accepted p 0x00018 4 = some .symcap := by
  simp [accepted, locate, windowBytes]

@[simp] theorem accepted_bbcap (p : Params) : accepted p 0x0001C 4 = some .bbcap := by
  simp [accepted, locate, windowBytes]

/-- A capacity fits a register, so that what reads of it return is the capacity itself. -/
theorem readLoc_symcap_toNat (s : State) : (readLoc s .symcap).toNat = s.params.symCap :=
  toNat_ofNat_of_lt (s.params.symCap_le.trans_lt (by decide))

theorem readLoc_bbcap_toNat (s : State) : (readLoc s .bbcap).toNat = s.params.bbBytes :=
  toNat_ofNat_of_lt (s.params.bbBytes_le.trans_lt (by decide))

/-- Settles O25: both registers read a constant of the parameters, which no step changes. -/
theorem capacitiesNeverChange : Obligations.CapacitiesNeverChange := by
  unfold Obligations.CapacitiesNeverChange
  intro s t h
  have hp := step_keeps_params h
  have hsym : readLoc t .symcap = readLoc s .symcap := by simp only [readLoc, hp]
  have hbb : readLoc t .bbcap = readLoc s .bbcap := by simp only [readLoc, hp]
  exact ⟨readLoc s .symcap, readLoc s .bbcap,
    readLoc_symcap_toNat s, serve_read (accepted_symcap _), hsym ▸ serve_read (accepted_symcap _),
    fun x => serve_write x (accepted_symcap _),
    readLoc_bbcap_toNat s, serve_read (accepted_bbcap _), hbb ▸ serve_read (accepted_bbcap _),
    fun x => serve_write x (accepted_bbcap _)⟩

/-! ### The resets (R29, R145) -/

/-- A hard reset is taken off the list and resets the block. -/
theorem step_hardReset {s : State} {rest : List HostOp} (h : s.pending = .hardReset :: rest) :
    step s = .next { s with pending := rest }.resetBlock := by
  simp [step, hostStep, h, receive]

/-- Settles O20: both make `resetBlock` of the state, in which every memory is empty and reads 0. -/
theorem hardResetAndSrst : Obligations.HardResetAndSrst := by
  unfold Obligations.HardResetAndSrst
  intro s rest h
  refine ⟨{ s with pending := rest }.resetBlock, step_hardReset h, rfl, ?_⟩
  simp [State.ctWord, State.tmWord, State.sbByte, State.bbByte]

end Sys2Proof.Machine

/-!
PROOFS. Host accesses (spec/20_memory.md): the address map (R30 to R32), what a read returns and a write does (R33 to
R36), and which operations reach a memory (R37).
-/

namespace Sys2Proof.Machine

/-! ### The address map (R31, R32) -/

/-- Every offset of the map is a multiple of 4. -/
theorem Loc.offset_mod (loc : Loc) : loc.offset % 4 = 0 := by
  cases loc <;> simp only [Loc.offset] <;> omega

/-- A location the block has lies inside the window, because a capacity is at most 65536 (R5). -/
theorem Loc.offset_lt {p : Params} {loc : Loc} (h : loc.mapped p = true) : loc.offset < windowBytes := by
  have hs := p.symCap_le
  have hb := p.bbBytes_le
  cases loc with
  | tm i => have := i.isLt; simp only [Loc.offset, windowBytes]; omega
  | ct y k =>
    have := y.isLt
    have hk : k ≤ 8 := of_decide_eq_true h
    simp only [Loc.offset, windowBytes]; omega
  | sb j =>
    have hj : 4 * j < p.symCap := of_decide_eq_true h
    simp only [Loc.offset, windowBytes]; omega
  | bb j =>
    have hj : 4 * j < p.bbBytes := of_decide_eq_true h
    simp only [Loc.offset, windowBytes]; omega
  | _ => decide

/-- The map takes the offset of a location the block has to that location. -/
theorem locate_offset {p : Params} {loc : Loc} (h : loc.mapped p = true) : locate p loc.offset = some loc := by
  have hs := p.symCap_le
  cases loc with
  | tm i =>
    have := i.isLt
    change locate p (0x800 + 4 * i.toNat) = _
    unfold locate
    rw [if_neg (by omega), if_pos (by omega), show (0x800 + 4 * i.toNat - 0x800) / 4 = i.toNat by omega]
    simp
  | ct y k =>
    have := y.isLt
    have hk : k ≤ 8 := of_decide_eq_true h
    change locate p (0x4000 + 64 * y.toNat + 4 * k) = _
    unfold locate
    rw [if_neg (by omega), if_neg (by omega), if_neg (by omega), if_pos (by omega), if_pos (by omega),
      show (0x4000 + 64 * y.toNat + 4 * k - 0x4000) / 64 = y.toNat by omega,
      show (0x4000 + 64 * y.toNat + 4 * k) % 64 / 4 = k by omega]
    simp
  | sb j =>
    have hj : 4 * j < p.symCap := of_decide_eq_true h
    change locate p (0x10000 + 4 * j) = _
    unfold locate
    rw [if_neg (by omega), if_neg (by omega), if_neg (by omega), if_neg (by omega), if_neg (by omega),
      if_pos (by omega), if_pos (by omega), show (0x10000 + 4 * j - 0x10000) / 4 = j by omega]
  | bb j =>
    have hj : 4 * j < p.bbBytes := of_decide_eq_true h
    change locate p (0x20000 + 4 * j) = _
    unfold locate
    rw [if_neg (by omega), if_neg (by omega), if_neg (by omega), if_neg (by omega), if_neg (by omega),
      if_neg (by omega), if_pos (by omega), show (0x20000 + 4 * j - 0x20000) / 4 = j by omega]
  | _ => rfl

/-- The map gives a location at its own offset only. -/
theorem offset_of_locate {p : Params} {off : Nat} {loc : Loc} (h : locate p off = some loc) (ha : off % 4 = 0) :
    loc.offset = off := by
  have hb := p.bbBytes_le
  unfold locate at h
  split at h
  · split at h <;> cases h <;> rfl
  split at h
  · cases h
    simp only [Loc.offset, BitVec.toNat_ofNat]; omega
  split at h
  · cases h
  split at h
  · simp only at h
    split at h
    · cases h
      simp only [Loc.offset, BitVec.toNat_ofNat]; omega
    · cases h
  split at h
  · cases h
  split at h
  · split at h
    · cases h
      simp only [Loc.offset]; omega
    · cases h
  split at h
  · cases h
    simp only [Loc.offset]; omega
  · cases h

/-- An aligned word access at the offset of a location the block has reaches it. -/
theorem accepted_offset {p : Params} {loc : Loc} (h : loc.mapped p = true) :
    accepted p loc.offset 4 = some loc := by
  unfold accepted
  rw [if_pos ⟨rfl, loc.offset_mod, Loc.offset_lt h⟩, locate_offset h]

/-- `locate` and `Loc.offset` are inverse to each other on the locations the block has. -/
theorem accepted_eq_some_iff {p : Params} {off size : Nat} {loc : Loc} :
    accepted p off size = some loc ↔ size = 4 ∧ loc.mapped p = true ∧ loc.offset = off := by
  constructor
  · intro h
    obtain ⟨hsize, halign, _, hloc⟩ := accepted_some h
    exact ⟨hsize, accepted_mapped h, offset_of_locate hloc halign⟩
  · rintro ⟨rfl, hm, rfl⟩
    exact accepted_offset hm

/-- Settles O13, by the two directions of the map. -/
theorem acceptedAccesses : Obligations.AcceptedAccesses :=
  fun _ _ _ _ => accepted_eq_some_iff

/-- An access that reaches no location of the block is not accepted. -/
theorem accepted_eq_none {p : Params} {off size : Nat}
    (h : size ≠ 4 ∨ ∀ loc : Loc, loc.mapped p = true → loc.offset ≠ off) : accepted p off size = none := by
  rw [Option.eq_none_iff_forall_ne_some]
  intro loc hloc
  obtain ⟨hsize, hm, hoff⟩ := accepted_eq_some_iff.1 hloc
  rcases h with h | h
  · exact h hsize
  · exact h loc hm hoff

/-- Settles O19: BASE is a multiple of 0x40000, so subtracting it inside the window leaves the low 18 bits. -/
theorem windowAddresses : Obligations.WindowAddresses := by
  unfold Obligations.WindowAddresses
  intro p addr off
  unfold offsetOfAddress Params.base windowBytes
  split
  · simp only [Option.some.injEq]; omega
  · simp only [reduceCtorEq, false_iff]; omega

/-! ### Host accesses of a location the block has (R32 to R34) -/

theorem serve_read_mapped {s : State} {loc : Loc} (h : loc.mapped s.params = true) :
    serve (.read loc.offset 4) s = .next (s, .data (readLoc s loc)) :=
  serve_read (accepted_offset h)

theorem serve_write_mapped {s : State} {loc : Loc} (h : loc.mapped s.params = true) (v : Word) :
    serve (.write loc.offset 4 v) s = withReply .ok (writeLoc s loc v) :=
  serve_write v (accepted_offset h)

/-- No command stops the block: dropped, raising or done, it leaves a next state. -/
theorem exec_answers (i : Instr) (s : State) : ∃ t, exec i s = .next t := by
  cases i with
  | nop => exact ⟨s, execNop_eq s⟩
  | encode => rcases execEncode_cases s with ⟨_, h⟩ | ⟨_, _, _, h⟩ | ⟨_, _, _, h⟩ <;> exact ⟨_, h⟩
  | decode => rcases execDecode_cases s with ⟨_, h⟩ | ⟨_, _, _, h⟩ | ⟨_, _, _, h⟩ <;> exact ⟨_, h⟩
  | clrerr => exact ⟨s.clearErr, rfl⟩
  | clrct =>
    by_cases hn : s.statusErr = none
    · exact ⟨_, execClrct_clear hn⟩
    · exact ⟨_, execClrct_latched hn⟩
  | clrtm =>
    by_cases hn : s.statusErr = none
    · exact ⟨_, execClrtm_clear hn⟩
    · exact ⟨_, execClrtm_latched hn⟩
  | srst => exact ⟨s.resetBlock, rfl⟩

theorem present_answers (w : Word) (s : State) : ∃ t, present w s = .next t := by
  rcases present_cases w s with ⟨_, _, _, h⟩ | ⟨_, _, _, h⟩ | ⟨i, _, h⟩
  · exact ⟨_, h⟩
  · exact ⟨_, h⟩
  · exact h ▸ exec_answers i s

theorem writeLoc_answers (s : State) (loc : Loc) (v : Word) : ∃ t, writeLoc s loc v = .next t := by
  cases loc with
  | cmd => exact present_answers v s
  | _ => exact ⟨_, rfl⟩

/-- A write to a location the block has is answered ok, with the state `writeLoc` leaves. -/
theorem serve_write_mapped_iff {s t : State} {loc : Loc} (h : loc.mapped s.params = true) (v : Word) :
    serve (.write loc.offset 4 v) s = .next (t, .ok) ↔ writeLoc s loc v = .next t := by
  obtain ⟨u, hu⟩ := writeLoc_answers s loc v
  rw [serve_write_mapped h, hu]
  simp [withReply]

/-- Settles O14: a mapped word is read and written, and any other access finds no location. -/
theorem otherAccessesAnswerBusError : Obligations.OtherAccessesAnswerBusError := by
  unfold Obligations.OtherAccessesAnswerBusError
  intro s off size
  constructor
  · rintro ⟨rfl, _, _, loc, hm, rfl⟩
    refine ⟨⟨_, serve_read_mapped hm⟩, fun v => ?_⟩
    obtain ⟨t, ht⟩ := writeLoc_answers s loc v
    exact ⟨t, (serve_write_mapped_iff hm v).2 ht⟩
  · intro h
    have hnone : accepted s.params off size = none := by
      apply accepted_eq_none
      rcases h with h | h | h | h
      · exact .inl h
      · exact .inr fun loc _ e => h (e ▸ loc.offset_mod)
      · exact .inr fun loc hm e => absurd (e ▸ Loc.offset_lt hm) (Nat.not_lt.2 h)
      · exact .inr h
    exact ⟨serve_read_refused hnone, fun v => serve_write_refused v hnone⟩

/-! ### The bytes of a host word (R35) -/

/-- The byte at position b of a written word is its bits 8b + 7 : 8b. -/
theorem getElem_bytesOfWord (v : Word) {b : Nat} (h : b < 4) : (bytesOfWord v)[b] = v.extractLsb' (8 * b) 8 := by
  interval_cases b <;> rfl

/-- The assembled word holds byte 4j + b of the buffer in its bits 8b + 7 : 8b. -/
theorem extractLsb'_bufferWord (m : Memory 8) (j : Nat) {b : Nat} (h : b < 4) :
    (bufferWord m j).extractLsb' (8 * b) 8 = Memory.read m (4 * j + b) := by
  unfold bufferWord wordOfBytes
  apply BitVec.eq_of_getLsbD_eq
  intro i hi
  interval_cases b <;>
    simp (disch := omega) only [BitVec.getLsbD_extractLsb', BitVec.getLsbD_append, hi, decide_true, Bool.true_and,
      if_pos, if_neg] <;>
    congr 1 <;> omega

/-- A word is determined by its four bytes. -/
theorem word_ext {v w : Word} (h : ∀ b < 4, v.extractLsb' (8 * b) 8 = w.extractLsb' (8 * b) 8) : v = w := by
  apply BitVec.eq_of_getLsbD_eq
  intro i hi
  have hbit := congrArg (fun x : Byte => x.getLsbD (i % 8)) (h (i / 8) (by omega))
  simpa [BitVec.getLsbD_extractLsb', Nat.mod_lt, Nat.div_add_mod] using hbit

theorem Memory.read_writeWord_inside (m : Memory 8) (j : Nat) (v : Word) {b : Nat} (h : b < 4) :
    Memory.read (Memory.writeAll m (4 * j) (bytesOfWord v)) (4 * j + b) = v.extractLsb' (8 * b) 8 := by
  rw [Memory.read_writeAll_inside m (4 * j) (bytesOfWord v) h, getElem_bytesOfWord v h]

theorem bufferWord_writeWord_same (m : Memory 8) (j : Nat) (v : Word) :
    bufferWord (Memory.writeAll m (4 * j) (bytesOfWord v)) j = v :=
  word_ext fun b hb => by rw [extractLsb'_bufferWord _ _ hb, Memory.read_writeWord_inside m j v hb]

theorem bufferWord_writeWord_other (m : Memory 8) {j j' : Nat} (v : Word) (h : j' ≠ j) :
    bufferWord (Memory.writeAll m (4 * j) (bytesOfWord v)) j' = bufferWord m j' :=
  word_ext fun b hb => by
    have hout : 4 * j' + b < 4 * j ∨ 4 * j + (bytesOfWord v).length ≤ 4 * j' + b := by
      change _ ∨ 4 * j + 4 ≤ _; omega
    rw [extractLsb'_bufferWord _ _ hb, extractLsb'_bufferWord _ _ hb, Memory.read_writeAll_outside _ _ _ hout]

/-! ### Table words after a write (R22, R34) -/

theorem State.tmWord_setTmWord_same (s : State) (i : NodeIdx) (v : Word) :
    (s.setTmWord i v).tmWord i = v &&& tmMask := by
  simp [State.tmWord]

theorem State.tmWord_setTmWord_other (s : State) {i j : NodeIdx} (v : Word) (h : j ≠ i) :
    (s.setTmWord i v).tmWord j = s.tmWord j :=
  Memory.read_write_other s.tm _ fun e => h (BitVec.eq_of_toNat_eq e)

theorem State.ctWord_setCtWord_same (s : State) (y : Byte) (k : Nat) (v : Word) :
    (s.setCtWord y k v).ctWord y k = v &&& ctMask k := by
  simp [State.ctWord]

/-- The nine words of a symbol and those of another stand at distinct addresses. -/
theorem ctAddr_inj {y y' : Byte} {k k' : Nat} (hk : k ≤ 8) (hk' : k' ≤ 8) (h : ctAddr y' k' = ctAddr y k) :
    y' = y ∧ k' = k := by
  unfold ctAddr at h
  exact ⟨BitVec.eq_of_toNat_eq (by omega), by omega⟩

theorem State.ctWord_setCtWord_other (s : State) {y y' : Byte} {k k' : Nat} (v : Word) (hk : k ≤ 8) (hk' : k' ≤ 8)
    (h : y' ≠ y ∨ k' ≠ k) : (s.setCtWord y k v).ctWord y' k' = s.ctWord y' k' := by
  apply Memory.read_write_other
  intro e
  obtain ⟨hy, hkk⟩ := ctAddr_inj hk hk' e
  exact h.elim (absurd hy) (absurd hkk)

/-- What a write stores of a word in CT: bits 7:0 in word 0, the whole word in the others. -/
theorem and_ctMask (v : Word) (k : Nat) : v &&& ctMask k = if k = 0 then v &&& 0x000000FF else v := by
  unfold ctMask
  split
  · rfl
  · exact and_mask v

theorem Format.ofBit_eq (b : Bool) : Format.ofBit b = if b then .character else .packed := by
  cases b <;> rfl

/-- Settles O12, location by location, by the rules of the memories. -/
theorem hostWriteEffects : Obligations.HostWriteEffects := by
  unfold Obligations.HostWriteEffects
  intro s loc v hm
  have hw := serve_write_mapped hm v
  cases loc with
  | cmd | status | errpos | symcap | bbcap | slen | blen => exact hw
  | ctrl => rw [← Format.ofBit_eq]; exact hw
  | tm i =>
    exact ⟨s.setTmWord i v, hw, rfl, s.tmWord_setTmWord_same i v, fun j hj => s.tmWord_setTmWord_other v hj⟩
  | ct y k =>
    exact ⟨s.setCtWord y k v, hw, rfl, (s.ctWord_setCtWord_same y k v).trans (and_ctMask v k),
      fun y' k' hk' h => s.ctWord_setCtWord_other v (of_decide_eq_true hm) hk' h⟩
  | sb j =>
    exact ⟨s.putSb (4 * j) (bytesOfWord v), hw, rfl, fun b hb => Memory.read_writeWord_inside s.sb j v hb,
      fun a ha => Memory.read_writeAll_outside s.sb _ _ ha⟩
  | bb j =>
    exact ⟨s.putBb (4 * j) (bytesOfWord v), hw, rfl, fun b hb => Memory.read_writeWord_inside s.bb j v hb,
      fun a ha => Memory.read_writeAll_outside s.bb _ _ ha⟩

/-! ### What a read returns (R33) -/

/-- A cell reads 0 or is listed with what it reads. -/
theorem Memory.read_eq_zero_or_mem {w : Nat} (m : Memory w) (a : Nat) :
    Memory.read m a = 0 ∨ (a, Memory.read m a) ∈ m := by
  induction m with
  | nil => exact .inl rfl
  | cons c m ih =>
    rw [Memory.read_cons]
    split
    · rename_i hc
      subst hc
      exact .inr (List.mem_cons_self ..)
    · exact ih.imp_right (List.mem_cons_of_mem c)

/-- A TM word holds only the bits a write stores. -/
theorem State.tmWord_and_tmMask {s : State} (h : s.tm.all tmCellOk = true) (i : NodeIdx) :
    s.tmWord i &&& tmMask = s.tmWord i := by
  unfold State.tmWord
  rcases Memory.read_eq_zero_or_mem s.tm i.toNat with hz | hmem
  · rw [hz]; rfl
  · have hok := List.all_eq_true.1 h _ hmem
    simp only [tmCellOk, Bool.and_eq_true, beq_iff_eq] at hok
    exact hok.2

/-- Bits 29:25 and 15:9 of a TM word are reserved and read 0 (R22, R55). -/
theorem State.tmWord_reserved {s : State} (h : s.tm.all tmCellOk = true) (i : NodeIdx) :
    s.tmWord i &&& 0x3E00FE00 = 0 := by
  rw [← State.tmWord_and_tmMask h i, BitVec.and_assoc, show tmMask &&& 0x3E00FE00 = 0#32 by decide]
  exact BitVec.and_zero

/-- Settles O11, location by location. Only the reserved bits of TM rest on the invariant. -/
theorem hostReadValues : Obligations.HostReadValues := by
  unfold Obligations.HostReadValues
  rintro s ⟨_, ⟨_, htm, _, _⟩, _⟩ loc hm
  refine ⟨readLoc s loc, serve_read_mapped hm, ?_⟩
  cases loc with
  | cmd | errpos | slen | blen => rfl
  | ctrl =>
    simp only [readLoc, State.ctrlWord]
    cases s.ctrlFmt <;> rfl
  | status =>
    simp only [readLoc, State.statusWord, State.errField]
    rcases s.statusErr with _ | k
    · rfl
    · cases k <;> rfl
  | symcap => exact readLoc_symcap_toNat s
  | bbcap => exact readLoc_bbcap_toNat s
  | tm i => exact ⟨rfl, State.tmWord_reserved htm i⟩
  | ct y k =>
    simp only [readLoc]
    split
    · exact BitVec.toNat_setWidth_of_le (by decide)
    · rfl
  | sb j => exact fun b hb => extractLsb'_bufferWord s.sb j hb
  | bb j => exact fun b hb => extractLsb'_bufferWord s.bb j hb

/-! ### A read after a write (R33, R34) -/

/-- LEN zero-extended is the masked word itself. -/
theorem setWidth_and_byteMask (v : Word) : ((v &&& 0x000000FF).setWidth 8).setWidth 32 = v &&& 0x000000FF := by
  have h : (v &&& 0x000000FF).toNat < 2 ^ 8 := by
    rw [BitVec.toNat_and]
    exact Nat.and_lt_two_pow v.toNat (by decide)
  apply BitVec.eq_of_toNat_eq
  rw [BitVec.toNat_setWidth_of_le (by decide), BitVec.toNat_setWidth, Nat.mod_eq_of_lt h]

/-- A write to a location other than CMD changes what no other location reads. -/
theorem readLoc_writeLoc_other {s t : State} {loc loc' : Loc} {v : Word} (hm : loc.mapped s.params = true)
    (hm' : loc'.mapped s.params = true) (hcmd : loc ≠ .cmd) (hne : loc' ≠ loc) (h : writeLoc s loc v = .next t) :
    readLoc t loc' = readLoc s loc' := by
  cases loc with
  | cmd => exact absurd rfl hcmd
  | status | errpos | symcap | bbcap => cases h; rfl
  | ctrl =>
    cases h
    cases loc' with
    | ctrl => exact absurd rfl hne
    | _ => rfl
  | slen =>
    cases h
    cases loc' with
    | slen => exact absurd rfl hne
    | _ => rfl
  | blen =>
    cases h
    cases loc' with
    | blen => exact absurd rfl hne
    | _ => rfl
  | tm i =>
    cases h
    cases loc' with
    | tm j => exact s.tmWord_setTmWord_other v (by simpa using hne)
    | _ => rfl
  | ct y k =>
    cases h
    cases loc' with
    | ct y' k' =>
      have hword := s.ctWord_setCtWord_other v (of_decide_eq_true hm) (of_decide_eq_true hm')
        (y := y) (y' := y') (by simpa [← not_and_or] using hne)
      simp only [readLoc]
      split
      · rename_i hk; subst hk; rw [hword]
      · exact hword
    | _ => rfl
  | sb j =>
    cases h
    cases loc' with
    | sb j' => exact bufferWord_writeWord_other s.sb v (by simpa using hne)
    | _ => rfl
  | bb j =>
    cases h
    cases loc' with
    | bb j' => exact bufferWord_writeWord_other s.bb v (by simpa using hne)
    | _ => rfl

/-- Settles O15: the written location by its own rule, the others by `readLoc_writeLoc_other`. -/
theorem readAfterWrite : Obligations.ReadAfterWrite := by
  unfold Obligations.ReadAfterWrite
  intro s loc v hm hcmd
  obtain ⟨t, ht⟩ := writeLoc_answers s loc v
  refine ⟨t, (serve_write_mapped_iff hm v).2 ht,
    fun loc' hm' hne => readLoc_writeLoc_other hm hm' hcmd hne ht, ?_⟩
  cases loc with
  | cmd => exact absurd rfl hcmd
  | status | errpos | symcap | bbcap | slen | blen => cases ht; rfl
  | ctrl =>
    cases ht
    refine Eq.trans ?_ BitVec.and_one_eq_setWidth_ofBool_getLsbD.symm
    simp only [readLoc, State.ctrlWord]
    cases v.getLsbD 0 <;> rfl
  | tm i => cases ht; exact s.tmWord_setTmWord_same i v
  | ct y k =>
    cases ht
    simp only [readLoc]
    split
    · rename_i hk; subst hk
      rw [s.ctWord_setCtWord_same, and_ctMask, if_pos rfl, setWidth_and_byteMask]
    · rename_i hk
      rw [s.ctWord_setCtWord_same, and_ctMask, if_neg hk]
  | sb j => cases ht; exact bufferWord_writeWord_same s.sb j v
  | bb j => cases ht; exact bufferWord_writeWord_same s.bb j v

/-! ### The same write twice (R36) -/

theorem Memory.write_write {w : Nat} {m : Memory w} (h : Memory.wf m) (a : Nat) (v : BitVec w) :
    Memory.write (Memory.write m a v) a v = Memory.write m a v :=
  Memory.ext (Memory.wf_write a v (Memory.wf_write a v h)) (Memory.wf_write a v h) fun b => by
    by_cases hb : b = a
    · subst hb; rw [Memory.read_write_same, Memory.read_write_same]
    · exact Memory.read_write_other _ v hb

theorem Memory.writeAll_writeAll {w : Nat} {m : Memory w} (h : Memory.wf m) (a : Nat) (vs : List (BitVec w)) :
    Memory.writeAll (Memory.writeAll m a vs) a vs = Memory.writeAll m a vs :=
  Memory.ext (Memory.wf_writeAll a vs (Memory.wf_writeAll a vs h)) (Memory.wf_writeAll a vs h) fun b => by
    rw [Memory.read_writeAll (Memory.writeAll m a vs)]
    split
    · rename_i hb; rw [Memory.read_writeAll, if_pos hb]
    · rfl

/-- A memory in canonical form is the same list after the second write; a register takes the same value again. -/
theorem writeLoc_writeLoc {s t : State} {loc : Loc} {v : Word} (hwf : s.memWf) (hcmd : loc ≠ .cmd)
    (h : writeLoc s loc v = .next t) : writeLoc t loc v = .next t := by
  obtain ⟨hct, htm, hsb, hbb⟩ := hwf
  cases loc with
  | cmd => exact absurd rfl hcmd
  | ctrl | status | errpos | slen | blen | symcap | bbcap => cases h; rfl
  | tm i => cases h; simp only [writeLoc, State.setTmWord, Memory.write_write htm]
  | ct y k => cases h; simp only [writeLoc, State.setCtWord, Memory.write_write hct]
  | sb j => cases h; simp only [writeLoc, State.putSb, Memory.writeAll_writeAll hsb]
  | bb j => cases h; simp only [writeLoc, State.putBb, Memory.writeAll_writeAll hbb]

/-- Settles O16: no write changes the parameters, so the second access reaches the same location. -/
theorem writesAreIdempotent : Obligations.WritesAreIdempotent := by
  unfold Obligations.WritesAreIdempotent
  intro s t loc v hwf hm hcmd h
  have hw := (serve_write_mapped_iff hm v).1 h
  have hparams := (writeLoc_keeps_host hw).1
  exact (serve_write_mapped_iff (hparams ▸ hm) v).2 (writeLoc_writeLoc hwf hcmd hw)

/-! ### The operations that reach a memory (R37) -/

/-- The decoder gives a command on its own word only (R52). -/
theorem eq_encode_of_decode {w : Word} {i : Instr} (h : decode w = .ok i) : w = encode i := by
  rw [decode_eq] at h
  split_ifs at h with h0 h1 h2 h3 h4 h5 h6 <;> cases h <;> assumption

/-- What can change each memory and CTRL from `s` to `t` when the host's operation is `op`. -/
structure ChangesOnlyBy (op : HostOp) (s t : State) : Prop where
  ct : t.ct ≠ s.ct → op = .hardReset ∨ (∃ y k v, k ≤ 8 ∧ op = .wr (.ct y k) v) ∨ op = .command .clrct ∨
    op = .command .srst
  tm : t.tm ≠ s.tm → op = .hardReset ∨ (∃ i v, op = .wr (.tm i) v) ∨ op = .command .clrtm ∨ op = .command .srst
  sb : t.sb ≠ s.sb → op = .hardReset ∨ (∃ j v, 4 * j < s.params.symCap ∧ op = .wr (.sb j) v) ∨
    op = .command .decode ∨ op = .command .srst
  bb : t.bb ≠ s.bb → op = .hardReset ∨ (∃ j v, 4 * j < s.params.bbBytes ∧ op = .wr (.bb j) v) ∨
    op = .command .encode ∨ op = .command .srst
  ctrl : t.ctrlFmt ≠ s.ctrlFmt → op = .hardReset ∨ (∃ v, op = .wr .ctrl v) ∨ op = .command .srst

/-- Each command reaches the memory it clears or fills, by the list of the commands' effects. -/
theorem exec_changesOnlyBy {i : Instr} {s t : State} (h : exec i s = .next t) :
    ChangesOnlyBy (.command i) s t := by
  rcases exec_cases h with rfl | ⟨_, rfl, r, _, rfl⟩ | ⟨_, rfl, bits, _, rfl⟩ | ⟨_, rfl, r, _, rfl⟩ |
    ⟨_, rfl, out, _, rfl⟩ | ⟨rfl, rfl⟩ | ⟨_, rfl, rfl⟩ | ⟨_, rfl, rfl⟩ | ⟨rfl, rfl⟩ <;> constructor <;> simp

theorem present_changesOnlyBy {w : Word} {s t : State} (h : present w s = .next t) :
    ChangesOnlyBy (.wr .cmd w) s t := by
  rcases present_cases w s with ⟨_, _, _, hp⟩ | ⟨_, _, _, hp⟩ | ⟨i, hd, hp⟩ <;> rw [hp] at h
  · cases h; constructor <;> simp
  · cases h; constructor <;> simp
  · rw [eq_encode_of_decode hd]; exact exec_changesOnlyBy h

theorem writeLoc_changesOnlyBy {loc : Loc} {v : Word} {s t : State} (hm : loc.mapped s.params = true)
    (h : writeLoc s loc v = .next t) : ChangesOnlyBy (.wr loc v) s t := by
  cases loc with
  | cmd => exact present_changesOnlyBy h
  | status | errpos | slen | blen | symcap | bbcap => cases h; constructor <;> simp
  | ctrl => cases h; exact ⟨by simp, by simp, by simp, by simp, fun _ => .inr (.inl ⟨v, rfl⟩)⟩
  | tm i => cases h; exact ⟨by simp, fun _ => .inr (.inl ⟨i, v, rfl⟩), by simp, by simp, by simp⟩
  | ct y k =>
    cases h
    have hk : k ≤ 8 := of_decide_eq_true hm
    exact ⟨fun _ => .inr (.inl ⟨y, k, v, hk, rfl⟩), by simp, by simp, by simp, by simp⟩
  | sb j =>
    cases h
    have hj : 4 * j < s.params.symCap := of_decide_eq_true hm
    exact ⟨by simp, by simp, fun _ => .inr (.inl ⟨j, v, hj, rfl⟩), by simp, by simp⟩
  | bb j =>
    cases h
    have hj : 4 * j < s.params.bbBytes := of_decide_eq_true hm
    exact ⟨by simp, by simp, by simp, fun _ => .inr (.inl ⟨j, v, hj, rfl⟩), by simp⟩

/-- A step that changes a memory or CTRL takes an operation off the host's list that may do so. -/
theorem step_changesOnlyBy {s t : State} (h : step s = .next t) :
    t = s ∨ ∃ op rest, s.pending = op :: rest ∧ ChangesOnlyBy op s t := by
  rcases step_cases h with ⟨_, rfl⟩ |
    ⟨op, rest, hp, ⟨rfl, rfl⟩ | ⟨off, size, loc, rfl, _, rfl⟩ | ⟨off, size, v, loc, rfl, ha, hw⟩⟩
  · exact .inl rfl
  · exact .inr ⟨_, rest, hp, by constructor <;> simp⟩
  · exact .inr ⟨_, rest, hp, by constructor <;> simp⟩
  · obtain ⟨rfl, hm, rfl⟩ := accepted_eq_some_iff.1 ha
    obtain ⟨hct, htm, hsb, hbb, hctrl⟩ := writeLoc_changesOnlyBy (s := { s with pending := rest }) hm hw
    exact .inr ⟨_, rest, hp, hct, htm, hsb, hbb, hctrl⟩

/-- Settles O26: a step that waits changes nothing; any other takes its operation off the host's list. -/
theorem memoriesChangeOnlyBy : Obligations.MemoriesChangeOnlyBy := by
  unfold Obligations.MemoriesChangeOnlyBy
  intro s t h
  rcases step_changesOnlyBy h with rfl | ⟨op, rest, hp, hct, htm, hsb, hbb, hctrl⟩
  · simp
  · exact ⟨fun hne => ⟨op, rest, hp, hct hne⟩, fun hne => ⟨op, rest, hp, htm hne⟩,
      fun hne => ⟨op, rest, hp, hsb hne⟩, fun hne => ⟨op, rest, hp, hbb hne⟩,
      fun hne => ⟨op, rest, hp, hctrl hne⟩⟩

end Sys2Proof.Machine

/-!
PROOFS. The encodings (spec/30_encoding.md): the command words and the dispatcher (R50 to R53), code-table entries
(R54), tree words (R55) and bit characters (R58, R59).
-/

namespace Sys2Proof.Machine

/-! ### Command words and the decoder (R50 to R53) -/

/-- What `Laws/PerInstr.lean` says of each command, for all of them. -/
theorem commandWord_statement (i : Instr) : Laws.CommandWords.Statement i := by
  cases i with
  | nop => exact Laws.CommandWords.nop
  | encode => exact Laws.CommandWords.encode
  | decode => exact Laws.CommandWords.decode
  | clrerr => exact Laws.CommandWords.clrerr
  | clrct => exact Laws.CommandWords.clrct
  | clrtm => exact Laws.CommandWords.clrtm
  | srst => exact Laws.CommandWords.srst

@[simp] theorem decode_encode (i : Instr) : decode (encode i) = .ok i :=
  (commandWord_statement i).2.2

theorem decode_eq_ok_iff {w : Word} {i : Instr} : decode w = .ok i ↔ w = encode i :=
  ⟨eq_encode_of_decode, fun h => h ▸ decode_encode i⟩

theorem encode_opc_le (i : Instr) : (encode i).toNat / 2 ^ 24 ≤ 6 := by
  cases i <;> decide

theorem encode_arg (i : Instr) : (encode i).toNat % 2 ^ 24 = 0 := by
  cases i <;> decide

/-- The seven OPCs of the opcode map are all the numbers up to 6. -/
theorem exists_encode_opc_eq {n : Nat} (h : n ≤ 6) : ∃ i : Instr, (encode i).toNat / 2 ^ 24 = n := by
  interval_cases n
  exacts [⟨.nop, rfl⟩, ⟨.encode, rfl⟩, ⟨.decode, rfl⟩, ⟨.clrerr, rfl⟩, ⟨.clrct, rfl⟩, ⟨.clrtm, rfl⟩, ⟨.srst, rfl⟩]

/-- A word with an OPC of the map and ARG = 0 is the word of a command. -/
theorem exists_eq_encode {w : Word} (hopc : w.toNat / 2 ^ 24 ≤ 6) (harg : w.toNat % 2 ^ 24 = 0) :
    ∃ i, w = encode i := by
  obtain ⟨i, hi⟩ := exists_encode_opc_eq hopc
  have hi0 := encode_arg i
  exact ⟨i, BitVec.eq_of_toNat_eq (by omega)⟩

/-- An illegal word (R53) is the word of no command. -/
theorem ne_encode_of_illegal {w : Word} (h : 7 ≤ w.toNat / 2 ^ 24 ∨ w.toNat % 2 ^ 24 ≠ 0) (i : Instr) :
    w ≠ encode i := by
  rintro rfl
  have hopc := encode_opc_le i
  have harg := encode_arg i
  omega

/-- A word of no command is rejected, in the class its OPC puts it in. -/
theorem decode_of_ne_encode {w : Word} (h : ∀ i, w ≠ encode i) :
    decode w = if opcKnown w then .error (.nonzeroArg w) else .error (.illegalOpcode w) := by
  unfold decode
  split
  · rename_i i hi
    exact absurd (eq_encode_of_decode (by simp only [decode, hi])) (h i)
  · rfl

theorem decode_illegalOpcode {w : Word} (hopc : 7 ≤ w.toNat / 2 ^ 24) : decode w = .error (.illegalOpcode w) := by
  have hunknown : ¬ opcKnown w = true := by rw [opcKnown_iff]; omega
  rw [decode_of_ne_encode (ne_encode_of_illegal (.inl hopc)), if_neg hunknown]

theorem decode_nonzeroArg {w : Word} (hopc : w.toNat / 2 ^ 24 ≤ 6) (harg : w.toNat % 2 ^ 24 ≠ 0) :
    decode w = .error (.nonzeroArg w) := by
  rw [decode_of_ne_encode (ne_encode_of_illegal (.inr harg)), if_pos ((opcKnown_iff w).2 hopc)]

/-- Settles O1: each literal is the word `encode` gives its command. -/
theorem selectedByFullWord : Obligations.SelectedByFullWord := fun _ =>
  ⟨decode_eq_ok_iff, decode_eq_ok_iff, decode_eq_ok_iff, decode_eq_ok_iff, decode_eq_ok_iff, decode_eq_ok_iff,
    decode_eq_ok_iff⟩

/-- Settles O3. -/
theorem decodeOfEncode : Obligations.DecodeOfEncode := fun i _ => decode_encode i

/-- Settles O4, by the decoder's rules for commands and for the two classes of illegal words. -/
theorem fewWordsDecode : Obligations.FewWordsDecode :=
  ⟨decode_encode .decode, decode_encode .srst, decode_nonzeroArg (by decide) (by decide),
    decode_illegalOpcode (by decide)⟩

/-! ### The dispatcher (R51) -/

theorem present_of_decode_ok {w : Word} {i : Instr} (h : decode w = .ok i) (s : State) :
    present w s = exec i s := by
  simp only [present, h]

theorem present_of_eq_encode {w : Word} {i : Instr} (h : w = encode i) (s : State) : present w s = exec i s :=
  present_of_decode_ok (decode_eq_ok_iff.2 h) s

/-- With no error latched a word of no command raises BadCommand (R51 case 2, R53). -/
theorem present_illegal {w : Word} {s : State} (hs : s.statusErr = none) (hne : ∀ i, w ≠ encode i) :
    present w s = .next (s.raise .badCommand w) := by
  rcases present_cases w s with ⟨_, _, hn, _⟩ | ⟨_, _, _, hp⟩ | ⟨i, hd, _⟩
  · exact absurd hs hn
  · exact hp
  · exact absurd (eq_encode_of_decode hd) (hne i)

/-- Settles O2: the classes are the decoder's, and an illegal word of either class is the word of no command. -/
theorem illegalWordsRaiseBadCommand : Obligations.IllegalWordsRaiseBadCommand := by
  unfold Obligations.IllegalWordsRaiseBadCommand
  intro w
  refine ⟨decode_illegalOpcode, decode_nonzeroArg, fun hopc harg => ?_,
    fun s hs hill => present_illegal hs (ne_encode_of_illegal hill)⟩
  exact (exists_eq_encode hopc harg).imp fun _ => decode_eq_ok_iff.2

/-- While an error is latched every command but CLRERR and SRST is dropped (R51 case 1). -/
theorem exec_latched {i : Instr} {s : State} (h : s.statusErr ≠ none) (hclrerr : i ≠ .clrerr) (hsrst : i ≠ .srst) :
    exec i s = .next s := by
  cases i with
  | nop => exact execNop_eq s
  | encode => exact State.unlessLatched_latched h _
  | decode => exact State.unlessLatched_latched h _
  | clrerr => exact absurd rfl hclrerr
  | clrct => exact execClrct_latched h
  | clrtm => exact execClrtm_latched h
  | srst => exact absurd rfl hsrst

/-- While an error is latched every word but those of CLRERR and SRST is dropped, illegal ones too. -/
theorem present_latched {w : Word} {s : State} (h : s.statusErr ≠ none) (hclrerr : w ≠ encode .clrerr)
    (hsrst : w ≠ encode .srst) : present w s = .next s := by
  rcases present_cases w s with ⟨_, _, _, hp⟩ | ⟨_, _, hn, _⟩ | ⟨i, hd, hp⟩
  · exact hp
  · exact absurd hn h
  · obtain rfl := decode_eq_ok_iff.1 hd
    rw [hp]
    exact exec_latched h (fun e => hclrerr (e ▸ rfl)) (fun e => hsrst (e ▸ rfl))

/-- Settles O6, by the three cases of R51. -/
theorem dispatchOrder : Obligations.DispatchOrder := by
  unfold Obligations.DispatchOrder
  intro w s
  split_ifs with hdrop h0 h1 h2 h3 h4 h5 h6
  · obtain ⟨hs, hclrerr, hsrst⟩ := hdrop
    exact present_latched hs hclrerr hsrst
  · exact present_of_eq_encode h0 s
  · exact present_of_eq_encode h1 s
  · exact present_of_eq_encode h2 s
  · exact present_of_eq_encode h3 s
  · exact present_of_eq_encode h4 s
  · exact present_of_eq_encode h5 s
  · exact present_of_eq_encode h6 s
  · have hs : s.statusErr = none := by
      by_contra hs
      exact hdrop ⟨hs, h3, h6⟩
    have hne : ∀ i, w ≠ encode i := fun i => by
      cases i with
      | nop => exact h0
      | encode => exact h1
      | decode => exact h2
      | clrerr => exact h3
      | clrct => exact h4
      | clrtm => exact h5
      | srst => exact h6
    exact present_illegal hs hne

/-- The answer to a write says nothing more than the state it leaves. -/
@[simp] theorem receive_withReply_ok (op : HostOp) (o : Outcome) : receive op (withReply .ok o) = o := by
  cases o <;> rfl

/-- A step whose operation writes a word to CMD is the dispatcher at that word. -/
theorem step_cmdWrite {s : State} {w : Word} {rest : List HostOp} (h : s.pending = .cmdWrite w :: rest) :
    step s = present w { s with pending := rest } := by
  have hserve : serve (.cmdWrite w) { s with pending := rest } =
      withReply .ok (present w { s with pending := rest }) :=
    serve_write w (accepted_cmd _)
  simp only [step, hostStep, h, hserve, receive_withReply_ok]

/-- Settles O5. -/
theorem stepRunsDecodedInstruction : Obligations.StepRunsDecodedInstruction := fun _ _ _ _ hp hd =>
  (step_cmdWrite hp).trans (present_of_decode_ok hd _)

/-! ### Bit characters (R58, R59) -/

theorem BitChar.ofBool_ne_invalid (b : Bool) : BitChar.ofBool b ≠ .invalid := by
  cases b <;> decide

theorem BitChar.ofByte_eq_invalid_iff (b : Byte) : BitChar.ofByte b = .invalid ↔ b ≠ 0x30 ∧ b ≠ 0x31 := by
  unfold BitChar.ofByte
  split_ifs with h0 h1
  · simp [h0]
  · simp [h1]
  · exact ⟨fun _ => ⟨h0, h1⟩, fun _ => rfl⟩

/-- A byte stored in BB is read back. -/
theorem State.bbByte_putBb_zero (s : State) {bytes : List Byte} {k : Nat} (h : k < bytes.length) :
    (s.putBb 0 bytes).bbByte k = bytes[k] := by
  simpa [State.bbByte] using Memory.read_writeAll_inside s.bb 0 bytes h

/-- Bit p of a stored sequence is bit 7 - (p mod 8) of byte p div 8, or character p. -/
theorem State.bitChar_putBb_packedBytes (s : State) {bits : List Bool} (f : Format) {p : Nat}
    (h : p < bits.length) : (s.putBb 0 (packedBytes bits f)).bitChar f p = BitChar.ofBool (padBit bits p) := by
  have hlen := length_packedBytes bits f
  cases f with
  | packed =>
    have hk : p / 8 < (packedBytes bits .packed).length := by rw [hlen]; simp only [streamBytes]; omega
    have hbyte : (packedBytes bits .packed)[p / 8] = packByte bits (p / 8) := by simp [packedBytes]
    simp only [State.bitChar]
    rw [State.bbByte_putBb_zero s hk, hbyte, getLsbD_packByte bits (p / 8) (Nat.mod_lt p (by decide)),
      Nat.div_add_mod]
  | character =>
    have hk : p < (packedBytes bits .character).length := by rw [hlen]; exact h
    have hbyte : (packedBytes bits .character)[p] = charByte bits[p] := by simp [packedBytes]
    simp only [State.bitChar]
    rw [State.bbByte_putBb_zero s hk, hbyte, BitChar.ofByte_charByte, padBit_of_lt h]

/-- Settles O46. -/
theorem packedBitsReadBack : Obligations.PackedBitsReadBack :=
  ⟨fun s _ f _ h => s.bitChar_putBb_packedBytes f h, fun _ _ => BitChar.ofBool_ne_invalid _,
    fun _ _ => BitChar.ofByte_eq_invalid_iff _⟩

/-! ### Code-table entries (R54, R83) -/

/-- The sum of `n + 1` bits weighted from 2^n down: one more bit doubles it and adds the bit. -/
theorem sum_bits_succ (f : Nat → Bool) (n : Nat) :
    ((List.range (n + 2)).map fun i => (f i).toNat * 2 ^ (n + 1 - i)).sum =
      Nat.bit (f (n + 1)) ((List.range (n + 1)).map fun i => (f i).toNat * 2 ^ (n - i)).sum := by
  have hdouble : ∀ i ∈ List.range (n + 1), (f i).toNat * 2 ^ (n + 1 - i) = 2 * ((f i).toNat * 2 ^ (n - i)) := by
    intro i hi
    rw [Nat.succ_sub (Nat.le_of_lt_succ (List.mem_range.1 hi)), Nat.pow_succ]
    ring
  rw [List.range_succ, List.map_append, List.sum_append, List.map_congr_left hdouble, List.sum_map_mul_left,
    Nat.bit_val]
  simp

/-- In such a sum bit n - j is the j-th. -/
theorem testBit_sum_bits (f : Nat → Bool) {n j : Nat} (h : j ≤ n) :
    ((List.range (n + 1)).map fun i => (f i).toNat * 2 ^ (n - i)).sum.testBit (n - j) = f j := by
  induction n with
  | zero =>
    obtain rfl := Nat.le_zero.1 h
    cases hf : f 0 <;> simp [hf]
  | succ n ih =>
    rw [sum_bits_succ]
    rcases Nat.le_or_eq_of_le_succ h with hj | rfl
    · rw [Nat.succ_sub hj, Nat.testBit_bit_succ, ih hj]
    · rw [Nat.sub_self, Nat.testBit_bit_zero]

/-- Bit 31 - j of word k + 1 of a code is code bit 32k + j (R54, R83). -/
theorem getLsbD_codeWord (code : List Bool) (k : Nat) {j : Nat} (h : j < 32) :
    (codeWord code (k + 1)).getLsbD (31 - j) = padBit code (32 * k + j) := by
  unfold codeWord
  rw [BitVec.getLsbD_ofNat, decide_eq_true (show 31 - j < 32 by omega), Bool.true_and, Nat.add_sub_cancel]
  exact testBit_sum_bits (n := 31) (fun i => padBit code (32 * k + i)) (Nat.le_of_lt_succ h)

theorem ctEntry_getD_zero (code : List Bool) : (ctEntry code).getD 0 0 = BitVec.ofNat 32 code.length := rfl

theorem ctEntry_getD_succ (code : List Bool) {k : Nat} (h : k < 8) :
    (ctEntry code).getD (k + 1) 0 = codeWord code (k + 1) := by
  simp [ctEntry, h]

/-- LEN of a stored entry is the length of the code. -/
theorem State.ctLen_of_entry {s : State} {y : Byte} {code : List Bool} (hlen : code.length ≤ 255)
    (h : ∀ k ≤ 8, s.ctWord y k = (ctEntry code).getD k 0) : s.ctLen y = code.length := by
  rw [State.ctLen, h 0 (by omega), ctEntry_getD_zero, BitVec.toNat_setWidth, toNat_ofNat_of_lt (by omega),
    Nat.mod_eq_of_lt (by omega)]

/-- Code bit i of a stored entry stands in word 1 + i div 32, which the entry has for every i < 256. -/
theorem State.codeBit_of_entry {s : State} {y : Byte} {code : List Bool}
    (h : ∀ k ≤ 8, s.ctWord y k = (ctEntry code).getD k 0) {i : Nat} (hi : i < 256) :
    s.codeBit y i = padBit code i := by
  rw [State.codeBit, h _ (by omega), Nat.add_comm 1, ctEntry_getD_succ code (by omega),
    getLsbD_codeWord code _ (Nat.mod_lt i (by decide)), Nat.div_add_mod]

/-- Settles O48: LEN from word 0, then bit by bit. -/
theorem codeEntryReadsBack : Obligations.CodeEntryReadsBack := by
  unfold Obligations.CodeEntryReadsBack
  intro s y code _ hlen h
  have hctLen := State.ctLen_of_entry hlen h
  refine ⟨hctLen, List.ext_getElem (by rw [State.length_codeBits, hctLen]) fun i _ hi => ?_⟩
  have hbit := State.codeBit_of_entry h (show i < 256 by omega)
  simp [State.codeBits, hbit, padBit_of_lt hi]

/-! ### Tree words (R55) -/

/-- TAG is read from bits 31:30 alone. -/
theorem nodeTag_congr {v w : Word} (h : v.extractLsb' 30 2 = w.extractLsb' 30 2) : nodeTag v = nodeTag w := by
  have hbit : ∀ i < 2, v.getLsbD (30 + i) = w.getLsbD (30 + i) := fun i hi => by
    simpa [BitVec.getLsbD_extractLsb', hi] using congrArg (fun x => x.getLsbD i) h
  have h30 : v.getLsbD 30 = w.getLsbD 30 := hbit 0 (by decide)
  have h31 : v.getLsbD 31 = w.getLsbD 31 := hbit 1 (by decide)
  unfold nodeTag
  rw [h30, h31]

theorem internalWord_toNat (l r : NodeIdx) : (internalWord l r).toNat = 2 ^ 30 + l.toNat * 2 ^ 16 + r.toNat := by
  have hl := l.isLt
  have hr := r.isLt
  change (BitVec.ofNat 32 0x40000000 + (l.setWidth 32 <<< 16) + r.setWidth 32).toNat = _
  simp only [BitVec.toNat_add, BitVec.toNat_shiftLeft, BitVec.toNat_setWidth, BitVec.toNat_ofNat, Nat.shiftLeft_eq]
  omega

theorem leafWord_toNat (y : Byte) : (leafWord y).toNat = 2 ^ 31 + y.toNat := by
  have hy := y.isLt
  change (BitVec.ofNat 32 0x80000000 + y.setWidth 32).toNat = _
  simp only [BitVec.toNat_add, BitVec.toNat_setWidth, BitVec.toNat_ofNat]
  omega

@[simp] theorem nodeTag_internalWord (l r : NodeIdx) : nodeTag (internalWord l r) = .internal := by
  refine nodeTag_congr (w := 0x40000000) (BitVec.eq_of_toNat_eq ?_)
  have hl := l.isLt
  have hr := r.isLt
  rw [BitVec.extractLsb'_toNat, internalWord_toNat, Nat.shiftRight_eq_div_pow]
  change _ = 1
  omega

@[simp] theorem nodeLeft_internalWord (l r : NodeIdx) : nodeLeft (internalWord l r) = l := by
  have hl := l.isLt
  have hr := r.isLt
  apply BitVec.eq_of_toNat_eq
  rw [nodeLeft, BitVec.extractLsb'_toNat, internalWord_toNat, Nat.shiftRight_eq_div_pow]
  omega

@[simp] theorem nodeRight_internalWord (l r : NodeIdx) : nodeRight (internalWord l r) = r := by
  have hr := r.isLt
  apply BitVec.eq_of_toNat_eq
  rw [nodeRight, BitVec.extractLsb'_toNat, internalWord_toNat, Nat.shiftRight_eq_div_pow]
  omega

@[simp] theorem nodeTag_leafWord (y : Byte) : nodeTag (leafWord y) = .leaf := by
  refine nodeTag_congr (w := 0x80000000) (BitVec.eq_of_toNat_eq ?_)
  have hy := y.isLt
  rw [BitVec.extractLsb'_toNat, leafWord_toNat, Nat.shiftRight_eq_div_pow]
  change _ = 2
  omega

@[simp] theorem nodeSym_leafWord (y : Byte) : nodeSym (leafWord y) = y := by
  have hy := y.isLt
  apply BitVec.eq_of_toNat_eq
  rw [nodeSym, BitVec.extractLsb'_toNat, leafWord_toNat, Nat.shiftRight_eq_div_pow]
  omega

@[simp] theorem nodeTag_synthWord : nodeTag synthWord = .synth := rfl

/-- A field over which a mask is all ones is kept by it. -/
theorem extractLsb'_and_of_ones {w m : Word} {start len : Nat}
    (h : m.extractLsb' start len = BitVec.allOnes len) :
    (w &&& m).extractLsb' start len = w.extractLsb' start len := by
  rw [BitVec.extractLsb'_and, h, BitVec.and_allOnes]

@[simp] theorem nodeTag_and_tmMask (w : Word) : nodeTag (w &&& tmMask) = nodeTag w :=
  nodeTag_congr (extractLsb'_and_of_ones (by decide))

@[simp] theorem nodeLeft_and_tmMask (w : Word) : nodeLeft (w &&& tmMask) = nodeLeft w :=
  extractLsb'_and_of_ones (by decide)

@[simp] theorem nodeRight_and_tmMask (w : Word) : nodeRight (w &&& tmMask) = nodeRight w :=
  extractLsb'_and_of_ones (by decide)

@[simp] theorem nodeSym_and_tmMask (w : Word) : nodeSym (w &&& tmMask) = nodeSym w :=
  extractLsb'_and_of_ones (by decide)

/-- Settles O47, by the fields of each word; the mask is that of a write to TM. -/
theorem treeWordFields : Obligations.TreeWordFields :=
  ⟨fun l r => ⟨nodeTag_internalWord l r, nodeLeft_internalWord l r, nodeRight_internalWord l r⟩,
    fun y => ⟨nodeTag_leafWord y, nodeSym_leafWord y⟩, nodeTag_synthWord, rfl,
    fun w => ⟨nodeTag_and_tmMask w, nodeLeft_and_tmMask w, nodeRight_and_tmMask w, nodeSym_and_tmMask w⟩⟩

end Sys2Proof.Machine

/-!
PROOFS. Trees and the images of their tables (spec/40_host_preparation.md): the codes of a tree (R78, R80), the layout
of TMImage and the entries of CTImage (R82, R83), and that they are consistent (R87).
-/

namespace Sys2Proof.Machine

/-! ### The codes of a tree (R78, R80) -/

theorem HTree.codeOf_leaf_eq_some {z y : Byte} {f : Nat} {c : List Bool} :
    (HTree.leaf z f).codeOf y = some c ↔ y = z ∧ c = [] := by
  rw [HTree.codeOf_leaf]
  split <;> simp_all [eq_comm]

/-- The code of a symbol under a node is a branch bit and the symbol's code in that child; the left child is asked
first. -/
theorem HTree.codeOf_node_eq_some {f : Nat} {l r : HTree} {y : Byte} {c : List Bool} :
    (HTree.node f l r).codeOf y = some c ↔
      (∃ d, l.codeOf y = some d ∧ c = false :: d) ∨ (l.codeOf y = none ∧ ∃ d, r.codeOf y = some d ∧ c = true :: d) := by
  rw [HTree.codeOf_node, Option.or_eq_some_iff]
  simp [eq_comm]

/-- A code is no longer than the tree is deep, wherever the walk begins. -/
theorem length_le_of_mem_codeWalk {t : HTree} {path : List Bool} {e : Byte × List Bool} (h : e ∈ codeWalk t path) :
    e.2.length ≤ path.length + t.depth := by
  induction t generalizing path with
  | leaf z f => simp only [codeWalk, List.mem_singleton] at h; simp [h]
  | synth => simp [codeWalk] at h
  | node f l r hl hr =>
    simp only [HTree.depth]
    rcases List.mem_append.1 h with h | h
    · have := hl h
      rw [List.length_append, List.length_singleton] at this
      omega
    · have := hr h
      rw [List.length_append, List.length_singleton] at this
      omega

theorem HTree.mem_codeWalk_of_codeOf {t : HTree} {y : Byte} {c : List Bool} (h : t.codeOf y = some c) :
    (y, c) ∈ codeWalk t [] := by
  obtain ⟨l₁, l₂, hl, -⟩ := List.lookup_eq_some_iff.1 h
  simp [hl]

theorem HTree.length_codeOf_le {t : HTree} {y : Byte} {c : List Bool} (h : t.codeOf y = some c) :
    c.length ≤ t.depth := by
  simpa using length_le_of_mem_codeWalk (HTree.mem_codeWalk_of_codeOf h)

/-- With a node at the root no code is empty (R79). -/
theorem HTree.codeOf_ne_nil {t : HTree} (ht : t.isNode = true) {y : Byte} {c : List Bool}
    (h : t.codeOf y = some c) : c ≠ [] := by
  cases t with
  | leaf | synth => cases ht
  | node f l r => rcases HTree.codeOf_node_eq_some.1 h with ⟨d, -, rfl⟩ | ⟨-, d, -, rfl⟩ <;> simp

/-- The symbols of the code table are those of the leaves, left to right. -/
theorem codeWalk_map_fst (t : HTree) (path : List Bool) : (codeWalk t path).map Prod.fst = t.symbols := by
  induction t generalizing path with
  | leaf | synth => rfl
  | node f l r hl hr => simp [codeWalk, HTree.symbols, hl, hr]

theorem HTree.exists_codeOf {t : HTree} {y : Byte} (h : y ∈ t.symbols) : ∃ c, t.codeOf y = some c :=
  Option.isSome_iff_exists.1 ((t.mem_symbols_iff y).1 h)

theorem codeTable_eq_some {t : HTree} {c : CodeMap} :
    codeTable t = some c ↔ t.isNode = true ∧ c = codeWalk t [] := by
  rw [codeTable, Option.ite_none_right_eq_some, Option.some.injEq, eq_comm (a := codeWalk t [])]

/-- The codes of two symbols part at the node where their paths do: one goes left, the other right. -/
theorem HTree.not_prefix_of_ne {t : HTree} {y z : Byte} {c d : List Bool} (hyz : y ≠ z) (hc : t.codeOf y = some c)
    (hd : t.codeOf z = some d) : ¬ c <+: d := by
  induction t generalizing c d with
  | leaf x f =>
    obtain ⟨rfl, -⟩ := HTree.codeOf_leaf_eq_some.1 hc
    exact absurd (HTree.codeOf_leaf_eq_some.1 hd).1.symm hyz
  | synth => simp [HTree.codeOf_synth] at hc
  | node f l r hl hr =>
    rcases HTree.codeOf_node_eq_some.1 hc with ⟨c', hc', rfl⟩ | ⟨-, c', hc', rfl⟩ <;>
      rcases HTree.codeOf_node_eq_some.1 hd with ⟨d', hd', rfl⟩ | ⟨-, d', hd', rfl⟩
    · simpa using hl hc' hd'
    · simp
    · simp
    · simpa using hr hc' hd'

/-! ### The layout of TMImage (R82, R87) -/

@[simp] theorem length_tmWords (i : Nat) (t : HTree) : (tmWords i t).length = t.size := by
  induction t generalizing i with
  | leaf | synth => rfl
  | node f l r hl hr => simp only [tmWords, HTree.size, List.length_cons, List.length_append, hl, hr]; omega

theorem toNat_ofNat_nodeIdx {i : Nat} (h : i < 512) : (BitVec.ofNat 9 i).toNat = i := by
  rw [BitVec.toNat_ofNat, Nat.mod_eq_of_lt h]

theorem State.tmWord_ofNat (s : State) {i : Nat} (h : i < 512) :
    s.tmWord (BitVec.ofNat 9 i) = Memory.read s.tm i := by
  rw [State.tmWord, toNat_ofNat_nodeIdx h]

/-- The words stand in TM from index `i` on. -/
def State.tmHolds (s : State) (i : Nat) (ws : List Word) : Prop :=
  ∀ k (h : k < ws.length), s.tmWord (BitVec.ofNat 9 (i + k)) = ws[k]

theorem State.tmHolds_cons {s : State} {i : Nat} {w : Word} {ws : List Word} (h : s.tmHolds i (w :: ws)) :
    s.tmWord (BitVec.ofNat 9 i) = w ∧ s.tmHolds (i + 1) ws := by
  refine ⟨h 0 (Nat.zero_lt_succ _), fun k hk => ?_⟩
  rw [Nat.add_assoc, Nat.add_comm 1]
  exact h (k + 1) (Nat.succ_lt_succ hk)

theorem State.tmHolds_append {s : State} {i : Nat} {ws vs : List Word} (h : s.tmHolds i (ws ++ vs)) :
    s.tmHolds i ws ∧ s.tmHolds (i + ws.length) vs := by
  refine ⟨fun k hk => ?_, fun k hk => ?_⟩
  · rw [h k (by simp; omega), List.getElem_append_left hk]
  · rw [Nat.add_assoc, h (ws.length + k) (by simpa using hk)]
    simp

/-- Where a tree's words stand, INTERNAL points at the words of the children (R82). -/
theorem State.tmHolds_node {s : State} {i f : Nat} {l r : HTree} (h : s.tmHolds i (tmWords i (.node f l r))) :
    s.tmWord (BitVec.ofNat 9 i) = internalWord (BitVec.ofNat 9 (i + 1)) (BitVec.ofNat 9 (i + 1 + l.size)) ∧
      s.tmHolds (i + 1) (tmWords (i + 1) l) ∧ s.tmHolds (i + 1 + l.size) (tmWords (i + 1 + l.size) r) := by
  obtain ⟨hw, hrest⟩ := State.tmHolds_cons h
  obtain ⟨hl, hr⟩ := State.tmHolds_append hrest
  rw [length_tmWords] at hr
  exact ⟨hw, hl, hr⟩

theorem HTree.laidOut_of_tmHolds {s : State} {t : HTree} {i : Nat} (h : s.tmHolds i (tmWords i t)) :
    t.laidOut s (BitVec.ofNat 9 i) = true := by
  induction t generalizing i with
  | leaf z f => simp [HTree.laidOut, (State.tmHolds_cons h).1]
  | synth => simp [HTree.laidOut, (State.tmHolds_cons h).1]
  | node f l r ihl ihr =>
    obtain ⟨hw, hl, hr⟩ := State.tmHolds_node h
    simp [HTree.laidOut, hw, ihl hl, ihr hr]

/-- The layout takes consecutive indices, in pre-order. -/
theorem HTree.indices_of_tmHolds {s : State} {t : HTree} {i : Nat} (h : s.tmHolds i (tmWords i t)) :
    t.indices s (BitVec.ofNat 9 i) = (List.range' i t.size).map (BitVec.ofNat 9) := by
  induction t generalizing i with
  | leaf | synth => rfl
  | node f l r ihl ihr =>
    obtain ⟨hw, hl, hr⟩ := State.tmHolds_node h
    rw [HTree.indices, hw, nodeLeft_internalWord, nodeRight_internalWord, ihl hl, ihr hr, HTree.size,
      Nat.add_assoc 1, Nat.add_comm 1, List.range'_succ, List.map_cons, ← List.range'_append_1, List.map_append]

/-- TM reads as TMImage up to its last word. -/
theorem State.tmHolds_tmImage {s : State} {t : HTree} (hsize : t.size ≤ 511)
    (h : ∀ i < 512, s.tmWord (BitVec.ofNat 9 i) = (tmImage t).getD i 0) : s.tmHolds 0 (tmImage t) := fun k hk => by
  have hlen : (tmImage t).length = t.size := length_tmWords 0 t
  rw [Nat.zero_add, h k (by omega)]
  simp [hk]

theorem HTree.layoutIn_of_tmHolds {s : State} {t : HTree} (hnode : t.isNode = true) (hsize : t.size ≤ 511)
    (h : s.tmHolds 0 (tmImage t)) : t.layoutIn s := by
  have hidx : t.indices s root = (List.range' 0 t.size).map (BitVec.ofNat 9) := HTree.indices_of_tmHolds h
  have hval : ∀ j ∈ List.range' 0 t.size, (BitVec.ofNat 9 j).toNat = j ∧ j < t.size := fun j hj => by
    have : j < t.size := by simpa using hj
    exact ⟨toNat_ofNat_nodeIdx (by omega), this⟩
  refine ⟨hnode, HTree.laidOut_of_tmHolds h, ?_, ?_⟩
  · rw [hidx]
    refine List.Nodup.map_on (fun j hj k hk hjk => ?_) List.nodup_range'
    rw [← (hval j hj).1, hjk, (hval k hk).1]
  · rw [hidx]
    intro i hi
    obtain ⟨j, hj, rfl⟩ := List.mem_map.1 hi
    rw [(hval j hj).1]
    exact (hval j hj).2

/-! ### The entries of CTImage (R83, R87) -/

theorem ctImage_of_codeOf_none {t : HTree} {y : Byte} (h : t.codeOf y = none) :
    ctImage (codeWalk t []) y = List.replicate 9 0 := by
  rw [HTree.codeOf] at h
  simp only [ctImage, h]

theorem ctImage_of_codeOf_some {t : HTree} {y : Byte} {code : List Bool} (h : t.codeOf y = some code) :
    ctImage (codeWalk t []) y = ctEntry code := by
  rw [HTree.codeOf] at h
  simp only [ctImage, h]

/-- The image of a tree's code table gives every symbol the entry its leaf asks for, or none. -/
theorem codeMatches_of_ctImage {s : State} {t : HTree} (hnode : t.isNode = true) (hdepth : t.depth ≤ 255) {y : Byte}
    (h : ∀ k ≤ 8, s.ctWord y k = (ctImage (codeWalk t []) y).getD k 0) : codeMatches s t y = true := by
  unfold codeMatches
  cases hc : t.codeOf y with
  | none =>
    rw [ctImage_of_codeOf_none hc] at h
    simp [State.ctLen, h 0 (Nat.zero_le 8)]
  | some code =>
    rw [ctImage_of_codeOf_some hc] at h
    have hpos := List.length_pos_iff.2 (HTree.codeOf_ne_nil hnode hc)
    obtain ⟨hlen, hbits⟩ := codeEntryReadsBack s y code hpos ((HTree.length_codeOf_le hc).trans hdepth) h
    simp [hlen, hbits]

/-- Settles O53, by the layout of TMImage and the entries of CTImage. -/
theorem imagesAreConsistent : Obligations.ImagesAreConsistent := by
  unfold Obligations.ImagesAreConsistent
  intro s tree c hnodup hsize hdepth hc htm hct
  obtain ⟨hnode, rfl⟩ := codeTable_eq_some.1 hc
  exact ⟨HTree.layoutIn_of_tmHolds hnode hsize (State.tmHolds_tmImage hsize htm), hnodup,
    fun y _ => codeMatches_of_ctImage hnode hdepth (hct y)⟩

end Sys2Proof.Machine

/-!
PROOFS. The host's tables of the data (spec/40_host_preparation.md): the frequency counter (R71), the tree builder and
what its merges keep (R72 to R77), the built tree's codes (R80).
-/

namespace Sys2Proof.Machine

/-! ### Frequency counter (R71) -/

theorem mem_allSymbols (y : Byte) : y ∈ allSymbols :=
  List.mem_map.2 ⟨y.toNat, List.mem_range.2 y.isLt, by simp⟩

theorem nodup_allSymbols : allSymbols.Nodup := by
  refine List.Nodup.map_on (fun i hi j hj hij => ?_) List.nodup_range
  have h := congrArg BitVec.toNat hij
  rw [BitVec.toNat_ofNat, BitVec.toNat_ofNat] at h
  rwa [Nat.mod_eq_of_lt (List.mem_range.1 hi), Nat.mod_eq_of_lt (List.mem_range.1 hj)] at h

theorem frequencyCount_eq (data : List Byte) : frequencyCount data = fun y => (data : Multiset Byte).count y :=
  funext fun y => (Multiset.coe_count y data).symm

/-- The sum of the counts of the symbols is the length of the data. -/
theorem sum_frequencyCount (data : List Byte) : (allSymbols.map (frequencyCount data)).sum = data.length := by
  have h : ∑ y ∈ allSymbols.toFinset, (data : Multiset Byte).count y = (data : Multiset Byte).card :=
    Multiset.sum_count_eq_card fun y _ => List.mem_toFinset.2 (mem_allSymbols y)
  rwa [List.sum_toFinset _ nodup_allSymbols, ← frequencyCount_eq] at h

/-- Settles O49. -/
theorem frequencyCountSums : Obligations.FrequencyCountSums :=
  ⟨fun data y => (Fin.card_filter_univ_eq_vector_get_eq_count y ⟨data, rfl⟩).symm, sum_frequencyCount,
    fun _ => List.count_nil⟩

/-! ### The shape of any tree (R76, R77) -/

theorem HTree.size_add_one (t : HTree) : t.size + 1 = 2 * t.leaves := by
  induction t with
  | leaf | synth => rfl
  | node f l r hl hr => simp only [HTree.size, HTree.leaves]; omega

theorem HTree.depth_lt_leaves (t : HTree) : t.depth < t.leaves := by
  induction t with
  | leaf | synth => exact Nat.zero_lt_one
  | node f l r hl hr => simp only [HTree.depth, HTree.leaves]; omega

/-- Only a node has more than one leaf. -/
theorem HTree.isNode_of_two_le_leaves {t : HTree} (h : 2 ≤ t.leaves) : t.isNode = true := by
  cases t with
  | leaf | synth => simp [HTree.leaves] at h
  | node => rfl

@[simp] theorem HTree.freq_node (f : Nat) (l r : HTree) : (HTree.node f l r).freq = f := rfl

/-! ### The builder's set Q (R72 to R76) -/

theorem enqueue_perm (e : Entry) (q : List Entry) : (enqueue e q).Perm (e :: q) := by
  induction q with
  | nil => exact .refl _
  | cons x q ih =>
    rw [enqueue]
    split
    · exact .refl _
    · exact (ih.cons x).trans (.swap ..)

theorem foldr_enqueue_perm (l : List Entry) : (l.foldr enqueue []).Perm l := by
  induction l with
  | nil => exact .refl _
  | cons e l ih => exact (enqueue_perm e _).trans (ih.cons e)

/-- What the merges keep of Q: the symbols of its trees, how many leaves they have, the sum of their frequencies, and
that every node's frequency is the sum of its children's. -/
structure QueueOf (syms : List Byte) (leaves total : Nat) (q : List Entry) : Prop where
  symbols : (q.map fun e => e.tree.symbols).flatten.Perm syms
  leaves : (q.map fun e => e.tree.leaves).sum = leaves
  total : (q.map fun e => e.freq).sum = total
  sumsUp : ∀ e ∈ q, e.tree.sumsUp = true ∧ e.tree.freq = e.freq

theorem QueueOf.perm {syms : List Byte} {n f : Nat} {q q' : List Entry} (h : QueueOf syms n f q) (hq : q'.Perm q) :
    QueueOf syms n f q' where
  symbols := (hq.map _).flatten.trans h.symbols
  leaves := (hq.map _).sum_eq.trans h.leaves
  total := (hq.map _).sum_eq.trans h.total
  sumsUp e he := h.sumsUp e (hq.mem_iff.1 he)

/-- Merging the two least nodes moves their symbols, leaves and frequencies under one node (R76). -/
theorem QueueOf.merge {syms : List Byte} {n f : Nat} {x y : Entry} {q : List Entry}
    (h : QueueOf syms n f (x :: y :: q)) (j : Nat) : QueueOf syms n f (enqueue (mergeEntry j x y) q) := by
  refine QueueOf.perm ⟨?_, ?_, ?_, fun e he => ?_⟩ (enqueue_perm _ q)
  · simpa [mergeEntry, HTree.symbols] using h.symbols
  · simpa [mergeEntry, HTree.leaves, Nat.add_assoc] using h.leaves
  · simpa [mergeEntry, Nat.add_assoc] using h.total
  · rcases List.mem_cons.1 he with rfl | he
    · obtain ⟨hx, hfx⟩ := h.sumsUp x (by simp)
      obtain ⟨hy, hfy⟩ := h.sumsUp y (by simp)
      simp [mergeEntry, HTree.sumsUp, hx, hy, hfx, hfy]
    · exact h.sumsUp e (by simp [he])

/-- A nonempty Q, with enough merges allowed, ends as one node that keeps what Q had. -/
theorem mergeAll_spec {syms : List Byte} {n f left j : Nat} {q : List Entry} (hq : q ≠ [])
    (hleft : q.length ≤ left + 1) (h : QueueOf syms n f q) :
    ∃ e, mergeAll left j q = some e.tree ∧ QueueOf syms n f [e] := by
  induction left generalizing j q with
  | zero =>
    match q, hq, hleft with
    | [e], _, _ => exact ⟨e, rfl, h⟩
  | succ left ih =>
    match q, hq, hleft with
    | [e], _, _ => exact ⟨e, rfl, h⟩
    | x :: y :: q, _, hleft =>
      have hlen := (enqueue_perm (mergeEntry j x y) q).length_eq
      exact ih (List.ne_nil_of_length_eq_add_one hlen) (by simpa [hlen] using hleft) (h.merge j)

/-! ### The set Q before the merges (R72, R74) -/

/-- The symbols a table counts, in ascending order. -/
def presentSymbols (F : FreqTable) : List Byte := allSymbols.filter fun y => F y != 0

theorem mem_presentSymbols {F : FreqTable} {y : Byte} : y ∈ presentSymbols F ↔ F y ≠ 0 := by
  simp [presentSymbols, mem_allSymbols]

theorem nodup_presentSymbols (F : FreqTable) : (presentSymbols F).Nodup := nodup_allSymbols.filter _

theorem length_presentSymbols_le (F : FreqTable) : (presentSymbols F).length ≤ 256 := by
  have h : allSymbols.length = 256 := by simp [allSymbols]
  exact h ▸ List.length_filter_le _ allSymbols

theorem presentSymbols_eq_nil {F : FreqTable} : presentSymbols F = [] ↔ ∀ y, F y = 0 := by
  simp [List.eq_nil_iff_forall_not_mem, mem_presentSymbols]

/-- Symbols that are not counted add nothing to the sum of the table. -/
theorem sum_presentSymbols (F : FreqTable) : ((presentSymbols F).map F).sum = (allSymbols.map F).sum := by
  unfold presentSymbols
  induction allSymbols with
  | nil => rfl
  | cons y l ih =>
    by_cases hy : F y = 0
    · simp [hy, ih]
    · simp [hy, ih]

theorem initialLeaves_perm (F : FreqTable) : (initialLeaves F).Perm ((presentSymbols F).map (leafEntry F)) :=
  foldr_enqueue_perm _

theorem length_initialLeaves (F : FreqTable) : (initialLeaves F).length = (presentSymbols F).length := by
  rw [(initialLeaves_perm F).length_eq, List.length_map]

theorem initialLeaves_queueOf (F : FreqTable) :
    QueueOf (presentSymbols F) (presentSymbols F).length (allSymbols.map F).sum (initialLeaves F) := by
  refine QueueOf.perm ⟨?_, ?_, ?_, fun e he => ?_⟩ (initialLeaves_perm F)
  · simp [Function.comp_def, leafEntry, HTree.symbols, ← List.flatMap_def]
  · simp [Function.comp_def, leafEntry, HTree.leaves]
  · simpa [Function.comp_def, leafEntry] using sum_presentSymbols F
  · obtain ⟨y, -, rfl⟩ := List.mem_map.1 he
    exact ⟨rfl, rfl⟩

/-- The synthetic leaf adds one leaf and 1 to the frequencies, and no symbol. -/
theorem QueueOf.synth {syms : List Byte} {n f : Nat} {q : List Entry} (h : QueueOf syms n f q) :
    QueueOf syms (n + 1) (f + 1) (enqueue synthEntry q) := by
  refine QueueOf.perm ⟨?_, ?_, ?_, fun e he => ?_⟩ (enqueue_perm _ q)
  · simpa [synthEntry, HTree.symbols] using h.symbols
  · simp [synthEntry, HTree.leaves, h.leaves, Nat.add_comm]
  · simp [synthEntry, h.total, Nat.add_comm]
  · rcases List.mem_cons.1 he with rfl | he
    · exact ⟨rfl, rfl⟩
    · exact h.sumsUp e he

theorem addSynth_of_length_eq_one {q : List Entry} (h : q.length = 1) : addSynth q = enqueue synthEntry q := if_pos h

theorem addSynth_of_length_ne_one {q : List Entry} (h : q.length ≠ 1) : addSynth q = q := if_neg h

/-- Q after step 2, over a table that counts some symbol. -/
theorem addSynth_queueOf {F : FreqTable} {k : Nat} (hk : k = (presentSymbols F).length) (hpos : k ≠ 0) :
    addSynth (initialLeaves F) ≠ [] ∧
      QueueOf (presentSymbols F) (max k 2) ((allSymbols.map F).sum + if k = 1 then 1 else 0)
        (addSynth (initialLeaves F)) := by
  have hlen := length_initialLeaves F
  have hq := initialLeaves_queueOf F
  rw [← hk] at hlen hq
  by_cases h1 : k = 1
  · rw [addSynth_of_length_eq_one (hlen.trans h1), if_pos h1, h1]
    rw [h1] at hq
    exact ⟨List.ne_nil_of_length_eq_add_one (enqueue_perm synthEntry _).length_eq, hq.synth⟩
  · rw [addSynth_of_length_ne_one (hlen ▸ h1), if_neg h1, Nat.add_zero, Nat.max_eq_left (by omega)]
    exact ⟨List.ne_nil_of_length_pos (by omega), hq⟩

/-! ### BuildTree (R73, R77) -/

theorem buildTree_of_forall_eq_zero {F : FreqTable} (h : ∀ y, F y = 0) : buildTree F = .error .invalidInput := by
  have hlen : (initialLeaves F).length = 0 :=
    (length_initialLeaves F).trans (List.length_eq_zero_iff.2 (presentSymbols_eq_nil.2 h))
  have hq : addSynth (initialLeaves F) = [] :=
    (addSynth_of_length_ne_one (hlen.trans_ne Nat.zero_ne_one)).trans (List.eq_nil_of_length_eq_zero hlen)
  simp [buildTree, hq, mergeAll]

/-- A table that counts `k` symbols, `k` not 0, has a tree, which keeps what Q had after step 2. -/
theorem buildTree_spec {F : FreqTable} {k : Nat} (hk : k = (presentSymbols F).length) (hpos : k ≠ 0) :
    ∃ e : Entry, buildTree F = .ok e.tree ∧
      QueueOf (presentSymbols F) (max k 2) ((allSymbols.map F).sum + if k = 1 then 1 else 0) [e] := by
  obtain ⟨hne, hq⟩ := addSynth_queueOf hk hpos
  obtain ⟨e, he, hone⟩ := mergeAll_spec (j := 0) hne (Nat.le_succ _) hq
  exact ⟨e, by simp only [buildTree, he], hone⟩

/-- Settles O50: any counted symbol gives Q a node, and the merges allowed suffice. -/
theorem buildTreeRejectsEmpty : Obligations.BuildTreeRejectsEmpty := by
  unfold Obligations.BuildTreeRejectsEmpty
  intro F
  refine ⟨fun h => ?_, buildTree_of_forall_eq_zero⟩
  by_contra hne
  have hpos : (presentSymbols F).length ≠ 0 := fun h0 =>
    hne (presentSymbols_eq_nil.1 (List.eq_nil_of_length_eq_zero h0))
  obtain ⟨e, he, -⟩ := buildTree_spec rfl hpos
  rw [he] at h
  cases h

/-- Settles O51: what Q kept through the merges is said of its last node. -/
theorem builtTreeInvariants : Obligations.BuiltTreeInvariants := by
  unfold Obligations.BuiltTreeInvariants
  intro F tree k htree hk
  have hpos : k ≠ 0 := by
    rintro rfl
    rw [buildTree_of_forall_eq_zero (presentSymbols_eq_nil.1 (List.eq_nil_of_length_eq_zero hk.symm))] at htree
    cases htree
  obtain ⟨e, he, hsyms, hleaves, htotal, hsums⟩ := buildTree_spec hk hpos
  obtain rfl : e.tree = tree := Except.ok.inj (he.symm.trans htree)
  obtain ⟨hsum, hfreq⟩ := hsums e (List.mem_singleton_self e)
  have hperm : e.tree.symbols.Perm (presentSymbols F) := by simpa using hsyms
  have hl : e.tree.leaves = max k 2 := by simpa using hleaves
  have hsize := e.tree.size_add_one
  have hdepth := e.tree.depth_lt_leaves
  have hk256 : k ≤ 256 := hk ▸ length_presentSymbols_le F
  refine ⟨HTree.isNode_of_two_le_leaves (by omega), hperm.nodup_iff.2 (nodup_presentSymbols F),
    fun y => hperm.mem_iff.trans mem_presentSymbols, hsum, hl, by omega, by omega, by omega, ?_⟩
  simpa using hfreq.trans (by simpa using htotal)

theorem isNode_of_buildTree {F : FreqTable} {t : HTree} (h : buildTree F = .ok t) : t.isNode = true :=
  (builtTreeInvariants F t _ h rfl).1

theorem nodup_symbols_of_buildTree {F : FreqTable} {t : HTree} (h : buildTree F = .ok t) : t.symbols.Nodup :=
  (builtTreeInvariants F t _ h rfl).2.1

theorem depth_le_of_buildTree {F : FreqTable} {t : HTree} (h : buildTree F = .ok t) : t.depth ≤ 255 := by
  obtain ⟨-, -, -, -, -, -, hdepth, hk, -⟩ := builtTreeInvariants F t _ h rfl
  exact hdepth.trans hk

/-- A built tree fits TM (R82). -/
theorem size_le_of_buildTree {F : FreqTable} {t : HTree} (h : buildTree F = .ok t) : t.size ≤ 511 := by
  obtain ⟨-, -, -, -, -, hsize, -, hk, -⟩ := builtTreeInvariants F t _ h rfl
  omega

/-- The tree built for some data has a leaf for each of its symbols. -/
theorem mem_symbols_of_buildTree {data : List Byte} {t : HTree} (h : buildTree (frequencyCount data) = .ok t) :
    ∀ y ∈ data, y ∈ t.symbols := by
  obtain ⟨-, -, hmem, -⟩ := builtTreeInvariants _ t _ h rfl
  exact fun y hy => (hmem y).2 (List.count_pos_iff.2 hy).ne'

/-- Settles O52, by the parting of two codes at a node and the depth of a tree. -/
theorem codesArePrefixFree : Obligations.CodesArePrefixFree := by
  unfold Obligations.CodesArePrefixFree
  intro tree hnode
  refine ⟨fun y z c d hyz hc hd => ⟨HTree.not_prefix_of_ne hyz hc hd, HTree.not_prefix_of_ne hyz.symm hd hc⟩,
    fun y c hc => ?_⟩
  have hdepth := HTree.length_codeOf_le hc
  exact ⟨List.length_pos_iff.2 (HTree.codeOf_ne_nil hnode hc), hdepth,
    fun F hF => hdepth.trans (depth_le_of_buildTree hF)⟩

/-! ### compress of nothing (R84) -/

/-- Settles O54. -/
theorem compressRejectsEmpty : Obligations.CompressRejectsEmpty := fun _ _ => if_pos rfl

end Sys2Proof.Machine

/-!
PROOFS. The two coding commands over the tables of a tree (spec/40_host_preparation.md R86, R87): DECODE follows the
layout, ENCODE packs the tree's codes.
-/

namespace Sys2Proof.Machine

/-! ### DECODE over the layout of a tree (R86, R103 to R105) -/

theorem HTree.laidOut_node {s : State} {f : Nat} {l r : HTree} {i : NodeIdx}
    (h : (HTree.node f l r).laidOut s i = true) :
    nodeTag (s.tmWord i) = .internal ∧ l.laidOut s (nodeLeft (s.tmWord i)) = true ∧
      r.laidOut s (nodeRight (s.tmWord i)) = true := by
  simpa [HTree.laidOut, and_assoc] using h

/-- The root of a laid-out tree with two children is INTERNAL. -/
theorem HTree.tag_of_isNode {s : State} {t : HTree} {i : NodeIdx} (ht : t.isNode = true)
    (h : t.laidOut s i = true) : nodeTag (s.tmWord i) = .internal := by
  cases t with
  | leaf | synth => cases ht
  | node f l r => exact (HTree.laidOut_node h).1

/-- The bit characters from position `pos` on are these bits. -/
def State.bitsAt (s : State) (pos : Nat) (bits : List Bool) : Prop :=
  ∀ k (h : k < bits.length), s.bitChar s.ctrlFmt (pos + k) = BitChar.ofBool bits[k]

theorem State.bitsAt_cons {s : State} {pos : Nat} {b : Bool} {bits : List Bool} (h : s.bitsAt pos (b :: bits)) :
    s.bitChar s.ctrlFmt pos = BitChar.ofBool b ∧ s.bitsAt (pos + 1) bits := by
  refine ⟨h 0 (Nat.zero_lt_succ _), fun k hk => ?_⟩
  rw [Nat.add_assoc, Nat.add_comm 1]
  exact h (k + 1) (Nat.succ_lt_succ hk)

theorem State.bitsAt_append {s : State} {pos : Nat} {bits more : List Bool} (h : s.bitsAt pos (bits ++ more)) :
    s.bitsAt pos bits ∧ s.bitsAt (pos + bits.length) more := by
  refine ⟨fun k hk => ?_, fun k hk => ?_⟩
  · rw [h k (by simp; omega), List.getElem_append_left hk]
  · rw [Nat.add_assoc, h (bits.length + k) (by simpa using hk)]
    simp

theorem State.bitsAt_of_streamIs {s : State} {bits : List Bool} (h : s.streamIs bits) : s.bitsAt 0 bits :=
  fun k hk => by rw [Nat.zero_add, h.2 k hk, padBit_of_lt hk]

/-- A Zero or One at an INTERNAL node moves to the child on its side (R103). -/
theorem walkStep_ofBool {s : State} {pos : Nat} {w : Walk} {b : Bool}
    (hb : s.bitChar s.ctrlFmt pos = BitChar.ofBool b) (ht : nodeTag (s.tmWord w.cur) = .internal) :
    walkStep s pos w =
      enterChild s pos w (if b then nodeRight (s.tmWord w.cur) else nodeLeft (s.tmWord w.cur)) := by
  cases b <;> simp [walkStep, hb, BitChar.ofBool, takeBit, ht]

theorem enterChild_internal {s : State} {pos : Nat} {w : Walk} {nxt : NodeIdx}
    (h : nodeTag (s.tmWord nxt) = .internal) : enterChild s pos w nxt = .ok ⟨nxt, w.out⟩ := by
  simp [enterChild, h]

theorem enterChild_leaf {s : State} {pos : Nat} {w : Walk} {nxt : NodeIdx}
    (h : nodeTag (s.tmWord nxt) = .leaf) (hout : w.out.length < s.params.symCap) :
    enterChild s pos w nxt = .ok ⟨root, w.out ++ [nodeSym (s.tmWord nxt)]⟩ := by
  simp [enterChild, h, hout.ne]

/-- A bit that goes on, then the rest of the walk. -/
theorem walkFrom_succ_of_ofBool {s : State} {n pos : Nat} {w w' : Walk} {b : Bool}
    (hb : s.bitChar s.ctrlFmt pos = BitChar.ofBool b) (ht : nodeTag (s.tmWord w.cur) = .internal)
    (hw : enterChild s pos w (if b then nodeRight (s.tmWord w.cur) else nodeLeft (s.tmWord w.cur)) = .ok w') :
    walkFrom s (n + 1) pos w = walkFrom s n (pos + 1) w' := by
  simp only [walkFrom, walkStep_ofBool hb ht, hw]

/-- The rest of a code, from the moment the cursor is to enter a child: on through a node, out at a leaf. -/
theorem enterChild_code {s : State} {child : HTree} {nxt : NodeIdx} {y : Byte} {c : List Bool} {pos : Nat} {w : Walk}
    (hlaid : child.laidOut s nxt = true) (hc : child.codeOf y = some c) (hout : w.out.length < s.params.symCap)
    (hnode : child.isNode = true → walkFrom s c.length (pos + 1) ⟨nxt, w.out⟩ = .ok ⟨root, w.out ++ [y]⟩) :
    ∃ w', enterChild s pos w nxt = .ok w' ∧ walkFrom s c.length (pos + 1) w' = .ok ⟨root, w.out ++ [y]⟩ := by
  cases child with
  | leaf z f =>
    obtain ⟨rfl, rfl⟩ := HTree.codeOf_leaf_eq_some.1 hc
    obtain ⟨htag, hsym⟩ : nodeTag (s.tmWord nxt) = .leaf ∧ nodeSym (s.tmWord nxt) = y := by
      simpa [HTree.laidOut] using hlaid
    exact ⟨_, enterChild_leaf htag hout, by rw [hsym]; rfl⟩
  | synth => simp [HTree.codeOf_synth] at hc
  | node f l r => exact ⟨_, enterChild_internal (HTree.laidOut_node hlaid).1, hnode rfl⟩

/-- From a node the bits of a symbol's code lead to its leaf, which emits it and returns the cursor to the root. -/
theorem walkFrom_code {s : State} {t : HTree} {y : Byte} {c : List Bool} {pos : Nat} {w : Walk}
    (hnode : t.isNode = true) (hlaid : t.laidOut s w.cur = true) (hc : t.codeOf y = some c) (hbits : s.bitsAt pos c)
    (hout : w.out.length < s.params.symCap) : walkFrom s c.length pos w = .ok ⟨root, w.out ++ [y]⟩ := by
  induction t generalizing w c pos with
  | leaf | synth => cases hnode
  | node f l r ihl ihr =>
    obtain ⟨htag, hl, hr⟩ := HTree.laidOut_node hlaid
    rcases HTree.codeOf_node_eq_some.1 hc with ⟨d, hd, rfl⟩ | ⟨-, d, hd, rfl⟩
    · obtain ⟨hb, hrest⟩ := State.bitsAt_cons hbits
      obtain ⟨w', hw, hwalk⟩ := enterChild_code hl hd hout fun hn => ihl (w := ⟨_, w.out⟩) hn hl hd hrest hout
      rw [List.length_cons, walkFrom_succ_of_ofBool hb htag hw, hwalk]
    · obtain ⟨hb, hrest⟩ := State.bitsAt_cons hbits
      obtain ⟨w', hw, hwalk⟩ := enterChild_code hr hd hout fun hn => ihr (w := ⟨_, w.out⟩) hn hr hd hrest hout
      rw [List.length_cons, walkFrom_succ_of_ofBool hb htag hw, hwalk]

theorem HTree.codesOf_cons {t : HTree} {y : Byte} {c : List Bool} (h : t.codeOf y = some c) (syms : List Byte) :
    t.codesOf (y :: syms) = c ++ t.codesOf syms := by
  simp [HTree.codesOf, h]

/-- The codes of a sequence of symbols, walked from the root, emit that sequence. -/
theorem walkFrom_codesOf {s : State} {t : HTree} {syms : List Byte} {pos : Nat} {out : List Byte}
    (hnode : t.isNode = true) (hlaid : t.laidOut s root = true) (hsyms : ∀ y ∈ syms, y ∈ t.symbols)
    (hbits : s.bitsAt pos (t.codesOf syms)) (hout : out.length + syms.length ≤ s.params.symCap) :
    walkFrom s (t.codesOf syms).length pos ⟨root, out⟩ = .ok ⟨root, out ++ syms⟩ := by
  induction syms generalizing pos out with
  | nil => simp [HTree.codesOf, walkFrom]
  | cons y syms ih =>
    obtain ⟨c, hc⟩ := HTree.exists_codeOf (hsyms y (by simp))
    rw [HTree.codesOf_cons hc] at hbits ⊢
    obtain ⟨hcode, hrest⟩ := State.bitsAt_append hbits
    simp only [List.length_cons] at hout
    have hwalk := walkFrom_code (w := ⟨root, out⟩) hnode hlaid hc hcode (show out.length < _ by omega)
    have htail := ih (fun z hz => hsyms z (by simp [hz])) hrest (out := out ++ [y]) (by simp; omega)
    rw [List.length_append, walkFrom_add, hwalk]
    simpa using htail

/-- Where TM lays out a tree and the stream is its codes of symbols that fit SB, DECODE answers the symbols. -/
theorem decodedSymbols_of_layoutIn {s : State} {t : HTree} {syms : List Byte} (hlayout : t.layoutIn s)
    (hsyms : ∀ y ∈ syms, y ∈ t.symbols) (hfit : syms.length ≤ s.params.symCap)
    (hcap : s.blen.toNat ≤ bitCap s.params s.ctrlFmt) (hstream : s.streamIs (t.codesOf syms)) :
    decodedSymbols s = .ok syms := by
  obtain ⟨hnode, hlaid, -, -⟩ := hlayout
  have hwalk := walkFrom_codesOf hnode hlaid hsyms (State.bitsAt_of_streamIs hstream) (out := []) (by simpa using hfit)
  rw [← hstream.1] at hwalk
  simp [decodedSymbols, Nat.not_lt.2 hcap, hwalk]

/-! ### ENCODE over consistent tables (R86, R92) -/

theorem codeMatches_some {s : State} {t : HTree} {y : Byte} {c : List Bool} (h : codeMatches s t y = true)
    (hc : t.codeOf y = some c) : s.ctLen y = c.length ∧ s.codeBits y = c := by
  simpa [codeMatches, hc] using h

/-- Over consistent tables the codes of the data are the tree's codes of it. -/
theorem codesFrom_of_consistent {s : State} {t : HTree} (hs : ConsistentWith s t) {data : List Byte} {i : Nat}
    (hdata : ∀ k (h : k < data.length), s.sbByte (i + k) = data[k]) (hsyms : ∀ y ∈ data, y ∈ t.symbols) :
    s.codesFrom i data.length = t.codesOf data := by
  induction data generalizing i with
  | nil => rfl
  | cons y data ih =>
    obtain ⟨c, hc⟩ := HTree.exists_codeOf (hsyms y (by simp))
    have hy : s.sbByte i = y := hdata 0 (Nat.zero_lt_succ _)
    have htail := ih (i := i + 1) (fun k hk => by
      rw [Nat.add_assoc, Nat.add_comm 1]; exact hdata (k + 1) (Nat.succ_lt_succ hk)) fun z hz => hsyms z (by simp [hz])
    rw [List.length_cons, State.codesFrom_succ, htail, hy, HTree.codesOf_cons hc,
      (codeMatches_some (hs.2.2 y (mem_allSymbols y)) hc).2]

/-- Over consistent tables ENCODE answers the tree's codes of data that fits SB and whose codes fit BB. -/
theorem encBits_of_consistent {s : State} {t : HTree} (hs : ConsistentWith s t) {data : List Byte}
    (hlen : s.slen.toNat = data.length) (hfit : data.length ≤ s.params.symCap)
    (hdata : ∀ k (h : k < data.length), s.sbByte k = data[k]) (hsyms : ∀ y ∈ data, y ∈ t.symbols)
    (hcap : (t.codesOf data).length ≤ bitCap s.params s.ctrlFmt) : encBits s = .ok (t.codesOf data) := by
  have hcodes : s.codesFrom 0 data.length = t.codesOf data :=
    codesFrom_of_consistent hs (fun k hk => by rw [Nat.zero_add]; exact hdata k hk) hsyms
  have henc : s.encodable := by
    refine ⟨hlen ▸ hfit, fun i hi => ?_, ?_⟩
    · rw [hlen] at hi
      obtain ⟨c, hc⟩ := HTree.exists_codeOf (hsyms _ (List.getElem_mem hi))
      rw [hdata i hi, (codeMatches_some (hs.2.2 _ (mem_allSymbols _)) hc).1]
      exact mt List.length_eq_zero_iff.1 (HTree.codeOf_ne_nil hs.1.1 hc)
    · rwa [hlen, ← State.length_codesFrom, hcodes]
  rw [encBits_of_encodable henc, hlen, hcodes]

end Sys2Proof.Machine

/-!
PROOFS. The loads of the host programs (spec/40_host_preparation.md R84, R85): what their writes leave in TM and CT.
-/

namespace Sys2Proof.Machine

/-! ### Stretches of a host program that write (R64, R84, R85) -/

/-- The operations are all accepted, read nothing, and take the block from `s` to `t`: whatever program follows them
goes on from `t`. -/
def Drives (ops : List HostOp) (s t : State) : Prop :=
  ∀ rest, runProgram (ops ++ rest) s = runProgram rest t

theorem Drives.nil (s : State) : Drives [] s s := fun _ => rfl

theorem Drives.append {ops ops' : List HostOp} {s t u : State} (h : Drives ops s t) (h' : Drives ops' t u) :
    Drives (ops ++ ops') s u := fun rest => by rw [List.append_assoc, h, h']

theorem Drives.cons {op : HostOp} {ops : List HostOp} {s t u : State} (h : Drives [op] s t) (h' : Drives ops t u) :
    Drives (op :: ops) s u := h.append h'

/-- An operation that is answered ok and no more is no part of the values read. -/
theorem drives_of_serve {op : HostOp} {s t : State} (h : serve op s = .next (t, .ok)) : Drives [op] s t := by
  intro rest
  simp only [List.singleton_append, runProgram, runOps, h]
  cases runOps rest t with
  | next p => simp [firstBusError, readValues]
  | fault | refused => rfl

theorem drives_wr {loc : Loc} {v : Word} {s t : State} (hm : loc.mapped s.params = true)
    (h : writeLoc s loc v = .next t) : Drives [.wr loc v] s t :=
  drives_of_serve ((serve_write_mapped_iff hm v).2 h)

theorem drives_command {i : Instr} {s t : State} (h : exec i s = .next t) : Drives [.command i] s t :=
  drives_wr (loc := .cmd) rfl ((present_of_eq_encode rfl s).trans h)

/-! ### Writing the nonzero words of an image (R84, R85) -/

theorem Memory.read_writeAll_congr {w : Nat} {m n : Memory w} (h : ∀ a, Memory.read m a = Memory.read n a) (b : Nat)
    (vs : List (BitVec w)) (a : Nat) :
    Memory.read (Memory.writeAll m b vs) a = Memory.read (Memory.writeAll n b vs) a := by
  rw [Memory.read_writeAll, Memory.read_writeAll, h]

/-- A cell that reads 0 reads the same after 0 is written to it. -/
theorem Memory.read_write_zero {w : Nat} {m : Memory w} {b : Nat} (h : Memory.read m b = 0) (a : Nat) :
    Memory.read (Memory.write m b 0) a = Memory.read m a := by
  rw [Memory.read_write]
  split
  · rename_i hab; rw [hab, h]
  · rfl

/-- In a cleared stretch of a memory the writes of the nonzero words leave what writing all of them would. `upd m` is
the block with the memory `m`, whose word k stands under the address `base + k`. -/
theorem drives_writeNonzero {off : Nat → Nat} {upd : Memory 32 → State} {base j : Nat} {ws : List Word} {m : Memory 32}
    (hwrite : ∀ (m : Memory 32) (k : Nat) (h : k < ws.length),
      Drives [.write (off (j + k)) 4 ws[k]] (upd m) (upd (Memory.write m (base + (j + k)) ws[k])))
    (hzero : ∀ k < ws.length, Memory.read m (base + (j + k)) = 0) :
    ∃ m', Drives (writeNonzero off j ws) (upd m) (upd m') ∧
      ∀ a, Memory.read m' a = Memory.read (Memory.writeAll m (base + j) ws) a := by
  induction ws generalizing j m with
  | nil => exact ⟨m, Drives.nil _, fun _ => rfl⟩
  | cons w ws ih =>
    have shift (k : Nat) : j + 1 + k = j + (k + 1) := by omega
    have hw' (m : Memory 32) (k : Nat) (hk : k < ws.length) : Drives [.write (off (j + 1 + k)) 4 ws[k]] (upd m)
        (upd (Memory.write m (base + (j + 1 + k)) ws[k])) := by
      rw [shift]; exact hwrite m (k + 1) (Nat.succ_lt_succ hk)
    have hz : ∀ k < ws.length, Memory.read m (base + (j + 1 + k)) = 0 := fun k hk =>
      shift k ▸ hzero (k + 1) (Nat.succ_lt_succ hk)
    by_cases hw : w = 0
    · obtain ⟨m', hm', hread⟩ := ih hw' hz
      refine ⟨m', by rwa [writeNonzero, if_pos hw], fun a => ?_⟩
      rw [hread, Memory.writeAll_cons, hw, ← Nat.add_assoc]
      exact Memory.read_writeAll_congr (fun b => (Memory.read_write_zero (hzero 0 (Nat.zero_lt_succ _)) b).symm) _ _ a
    · have hhead := hwrite m 0 (Nat.zero_lt_succ _)
      obtain ⟨m', hm', hread⟩ := ih (m := Memory.write m (base + j) w) hw' fun k hk => by
        rw [Memory.read_write_other _ _ (by omega), hz k hk]
      refine ⟨m', ?_, hread⟩
      rw [writeNonzero, if_neg hw]
      exact hhead.cons hm'

/-! ### Loading the tree (R82, R84) -/

/-- A word whose reserved bits are 0 is stored in TM as it is. -/
theorem and_tmMask_of_reserved {w : Word} (h₁ : w.toNat / 2 ^ 25 % 2 ^ 5 = 0) (h₂ : w.toNat / 2 ^ 9 % 2 ^ 7 = 0) :
    w &&& tmMask = w := by
  have hmask : ∀ i < 32, tmMask.getLsbD i = true ∨ (9 ≤ i ∧ i < 16) ∨ 25 ≤ i ∧ i < 30 := by decide
  have hfield {a n i : Nat} (h : w.toNat / 2 ^ a % 2 ^ n = 0) (hi : a ≤ i ∧ i < a + n) : w.getLsbD i = false := by
    have hbit := congrArg (Nat.testBit · (i - a)) h
    rw [← BitVec.testBit_toNat]
    simpa [Nat.testBit_mod_two_pow, Nat.testBit_div_two_pow, show i - a < n by omega, Nat.sub_add_cancel hi.1]
      using hbit
  apply BitVec.eq_of_getLsbD_eq
  intro i hi
  rw [BitVec.getLsbD_and]
  rcases hmask i hi with h | h | h
  · rw [h, Bool.and_true]
  · rw [hfield h₂ h, Bool.false_and]
  · rw [hfield h₁ h, Bool.false_and]

theorem internalWord_and_tmMask (l r : NodeIdx) : internalWord l r &&& tmMask = internalWord l r := by
  have hl := l.isLt
  have hr := r.isLt
  apply and_tmMask_of_reserved <;> rw [internalWord_toNat] <;> omega

theorem leafWord_and_tmMask (y : Byte) : leafWord y &&& tmMask = leafWord y := by
  have hy := y.isLt
  apply and_tmMask_of_reserved <;> rw [leafWord_toNat] <;> omega

/-- The words of TMImage hold no reserved bit. -/
theorem tmWords_and_tmMask {t : HTree} {i : Nat} : ∀ w ∈ tmWords i t, w &&& tmMask = w := by
  induction t generalizing i with
  | leaf z f => simpa [tmWords] using leafWord_and_tmMask z
  | synth => intro w hw; rw [List.mem_singleton.1 hw]; rfl
  | node f l r hl hr =>
    intro w hw
    rcases List.mem_cons.1 hw with rfl | hw
    · exact internalWord_and_tmMask _ _
    · exact (List.mem_append.1 hw).elim (hl w) (hr w)

theorem tmOffset_eq {k : Nat} (h : k < 512) : tmOffset k = (Loc.tm (BitVec.ofNat 9 k)).offset := by
  simp only [tmOffset, Loc.offset, toNat_ofNat_nodeIdx h]

theorem drives_writeTm {s : State} {m : Memory 32} {k : Nat} {w : Word} (hk : k < 512) (hw : w &&& tmMask = w) :
    Drives [.write (tmOffset k) 4 w] { s with tm := m } { s with tm := Memory.write m k w } := by
  rw [tmOffset_eq hk]
  refine drives_wr rfl ?_
  simp only [writeLoc, State.setTmWord, toNat_ofNat_nodeIdx hk, hw]

/-- CLRTM and the nonzero words of TMImage leave the image in TM, and nothing else changed. -/
theorem drives_clrtm_loadTm {s : State} {t : HTree} (hs : s.statusErr = none) (hsize : t.size ≤ 512) :
    ∃ m, Drives (.command .clrtm :: loadTm t) s { s with tm := m } ∧
      ∀ k < 512, Memory.read m k = (tmImage t).getD k 0 := by
  have hlen : (tmImage t).length = t.size := length_tmWords 0 t
  have hwrite (m : Memory 32) (k : Nat) (hk : k < (tmImage t).length) :
      Drives [.write (tmOffset (0 + k)) 4 (tmImage t)[k]] { s with tm := m }
        { s with tm := Memory.write m (0 + (0 + k)) (tmImage t)[k] } := by
    rw [Nat.zero_add, Nat.zero_add]
    exact drives_writeTm (by omega) (tmWords_and_tmMask _ (List.getElem_mem hk))
  obtain ⟨m, hm, hread⟩ :=
    drives_writeNonzero (upd := fun m => { s with tm := m }) (m := []) hwrite fun _ _ => Memory.read_nil _
  refine ⟨m, (drives_command (i := .clrtm) (execClrtm_clear hs)).cons hm, fun k hk => ?_⟩
  rw [hread, Memory.read_writeAll]
  split
  · simp
  · rw [Memory.read_nil, List.getD_eq_default _ _ (by omega)]

/-! ### Loading the code table (R83, R84) -/

theorem ctEntry_and_ctMask {code : List Bool} (hlen : code.length ≤ 255) {k : Nat} (hk : k < (ctEntry code).length) :
    (ctEntry code)[k] &&& ctMask k = (ctEntry code)[k] := by
  rw [and_ctMask]
  split
  · rename_i h0
    subst h0
    apply BitVec.eq_of_toNat_eq
    change (BitVec.ofNat 32 code.length &&& 0x000000FF).toNat = (BitVec.ofNat 32 code.length).toNat
    rw [BitVec.toNat_and, toNat_ofNat_of_lt (by omega)]
    exact (Nat.and_two_pow_sub_one_eq_mod code.length 8).trans (Nat.mod_eq_of_lt (by omega))
  · rfl

@[simp] theorem length_ctEntry (code : List Bool) : (ctEntry code).length = 9 := by simp [ctEntry]

theorem drives_writeCt {s : State} {m : Memory 32} {y : Byte} {k : Nat} {w : Word} (hk : k ≤ 8)
    (hw : w &&& ctMask k = w) :
    Drives [.write (Loc.ct y k).offset 4 w] { s with ct := m } { s with ct := Memory.write m (ctAddr y k) w } := by
  refine drives_wr (decide_eq_true hk) ?_
  simp only [writeLoc, State.setCtWord, hw]

/-- The nonzero words of one entry, into a symbol's cleared words. -/
theorem drives_ctEntry {s : State} {y : Byte} {code : List Bool} {m : Memory 32} (hlen : code.length ≤ 255)
    (hzero : ∀ k ≤ 8, Memory.read m (ctAddr y k) = 0) :
    ∃ m', Drives (writeNonzero (fun k => (Loc.ct y k).offset) 0 (ctEntry code)) { s with ct := m } { s with ct := m' } ∧
      ∀ z k, k ≤ 8 →
        Memory.read m' (ctAddr z k) = if z = y then (ctEntry code).getD k 0 else Memory.read m (ctAddr z k) := by
  have hl := length_ctEntry code
  have hwrite (m : Memory 32) (k : Nat) (hk : k < (ctEntry code).length) :
      Drives [.write (Loc.ct y (0 + k)).offset 4 (ctEntry code)[k]] { s with ct := m }
        { s with ct := Memory.write m (16 * y.toNat + (0 + k)) (ctEntry code)[k] } := by
    rw [Nat.zero_add]
    exact drives_writeCt (by omega) (ctEntry_and_ctMask hlen hk)
  obtain ⟨m', hm', hread⟩ := drives_writeNonzero (off := fun k => (Loc.ct y k).offset)
    (upd := fun m => { s with ct := m }) (m := m) hwrite fun k hk => by
      rw [Nat.zero_add]; exact hzero k (by omega)
  refine ⟨m', hm', fun z k hk => ?_⟩
  rw [hread, Nat.add_zero]
  by_cases hz : z = y
  · subst hz
    rw [if_pos rfl, ctAddr, Memory.read_writeAll, if_pos (by omega), Nat.add_sub_cancel_left]
  · have hne : z.toNat ≠ y.toNat := fun h => hz (BitVec.eq_of_toNat_eq h)
    rw [if_neg hz, Memory.read_writeAll_outside _ _ _ (by simp only [ctAddr, hl]; omega)]

/-- The entries of a code table with distinct symbols, into the symbols' cleared words. -/
theorem drives_loadCt {s : State} {c : CodeMap} {m : Memory 32} (hnodup : (c.map Prod.fst).Nodup)
    (hlen : ∀ e ∈ c, e.2.length ≤ 255) (hzero : ∀ y ∈ c.map Prod.fst, ∀ k ≤ 8, Memory.read m (ctAddr y k) = 0) :
    ∃ m', Drives (loadCt c) { s with ct := m } { s with ct := m' } ∧
      ∀ y k, k ≤ 8 → Memory.read m' (ctAddr y k) =
        if y ∈ c.map Prod.fst then (ctImage c y).getD k 0 else Memory.read m (ctAddr y k) := by
  induction c generalizing m with
  | nil => exact ⟨m, Drives.nil _, fun _ _ _ => rfl⟩
  | cons e c ih =>
    rcases e with ⟨z, code⟩
    rw [List.map_cons, List.nodup_cons] at hnodup
    obtain ⟨m₁, hm₁, hread₁⟩ := drives_ctEntry (s := s) (hlen _ (List.mem_cons_self ..)) (hzero z (by simp))
    have hne : ∀ y ∈ c.map Prod.fst, y ≠ z := fun y hy e => hnodup.1 (e ▸ hy)
    obtain ⟨m', hm', hread⟩ := ih (m := m₁) hnodup.2 (fun e he => hlen e (by simp [he])) fun y hy k hk => by
      rw [hread₁ y k hk, if_neg (hne y hy)]
      exact hzero y (List.mem_cons_of_mem _ hy) k hk
    refine ⟨m', hm₁.append hm', fun y k hk => ?_⟩
    rw [hread y k hk, hread₁ y k hk]
    by_cases hyz : y = z
    · subst hyz
      simp [hnodup.1, ctImage]
    · have hlookup : ctImage ((z, code) :: c) y = ctImage c y := by
        simp [ctImage, List.lookup_cons, beq_eq_false_iff_ne.2 hyz]
      rw [hlookup, if_neg hyz]
      simp only [List.map_cons, List.mem_cons, hyz, false_or]

theorem ctImage_of_notMem {c : CodeMap} {y : Byte} (h : y ∉ c.map Prod.fst) : ctImage c y = List.replicate 9 0 := by
  have hlookup : c.lookup y = none := List.lookup_eq_none_iff.2 fun e he =>
    bne_iff_ne.2 fun hy => h (List.mem_map.2 ⟨e, he, hy.symm⟩)
  simp only [ctImage, hlookup]

/-- CLRCT and the nonzero words of CTImage leave the image in CT, and nothing else changed. -/
theorem drives_clrct_loadCt {s : State} {c : CodeMap} (hs : s.statusErr = none) (hnodup : (c.map Prod.fst).Nodup)
    (hlen : ∀ e ∈ c, e.2.length ≤ 255) :
    ∃ m, Drives (.command .clrct :: loadCt c) s { s with ct := m } ∧
      ∀ y k, k ≤ 8 → Memory.read m (ctAddr y k) = (ctImage c y).getD k 0 := by
  obtain ⟨m, hm, hread⟩ := drives_loadCt (s := s) (m := []) hnodup hlen fun _ _ _ _ => Memory.read_nil _
  refine ⟨m, (drives_command (i := .clrct) (execClrct_clear hs)).cons hm, fun y k hk => ?_⟩
  rw [hread y k hk]
  split
  · rfl
  · rename_i hy
    rw [ctImage_of_notMem hy, Memory.read_nil, List.getD_replicate 0 (by omega)]

end Sys2Proof.Machine

/-!
PROOFS. compress and decompress (spec/40_host_preparation.md R84 to R86): byte buffers written and read back, what the
two host programs answer, and the round trip.
-/

namespace Sys2Proof.Machine

/-! ### Loading and reading a byte buffer (R35, R84, R85) -/

theorem bytesOfWord_bufferWord (m : Memory 8) (j : Nat) : bytesOfWord (bufferWord m j) =
    [Memory.read m (4 * j), Memory.read m (4 * j + 1), Memory.read m (4 * j + 2), Memory.read m (4 * j + 3)] := by
  have h {b : Nat} (hb : b < 4) := extractLsb'_bufferWord m j hb
  simpa [bytesOfWord] using And.intro (h (b := 0) (by decide))
    ⟨h (b := 1) (by decide), h (b := 2) (by decide), h (b := 3) (by decide)⟩

@[simp] theorem bytesOfWord_wordOfBytes (b0 b1 b2 b3 : Byte) :
    bytesOfWord (wordOfBytes b0 b1 b2 b3) = [b0, b1, b2, b3] :=
  bytesOfWord_bufferWord [(0, b0), (1, b1), (2, b2), (3, b3)] 0

theorem length_bufferWords (bytes : List Byte) : (bufferWords bytes).length = (bytes.length + 3) / 4 := by
  induction bytes using bufferWords.induct with
  | case1 => rfl
  | case2 | case3 | case4 => simp [bufferWords]
  | case5 b0 b1 b2 b3 rest ih => simp only [bufferWords, List.length_cons, ih]; omega

/-- The bytes of the words of a buffer are the bytes given and what fills up the last word. -/
theorem bytes_bufferWords (bytes : List Byte) :
    ∃ fill, ((bufferWords bytes).map bytesOfWord).flatten = bytes ++ fill := by
  induction bytes using bufferWords.induct with
  | case1 => exact ⟨[], rfl⟩
  | case2 b0 => exact ⟨[0, 0, 0], by simp [bufferWords]⟩
  | case3 b0 b1 => exact ⟨[0, 0], by simp [bufferWords]⟩
  | case4 b0 b1 b2 => exact ⟨[0], by simp [bufferWords]⟩
  | case5 b0 b1 b2 b3 rest ih =>
    obtain ⟨fill, h⟩ := ih
    exact ⟨fill, by simp [bufferWords, h]⟩

theorem Memory.writeAll_append {w : Nat} (m : Memory w) (a : Nat) (vs us : List (BitVec w)) :
    Memory.writeAll m a (vs ++ us) = Memory.writeAll (Memory.writeAll m a vs) (a + vs.length) us := by
  induction vs generalizing m a with
  | nil => rfl
  | cons v vs ih =>
    rw [List.cons_append, Memory.writeAll_cons, ih, Memory.writeAll_cons, List.length_cons, Nat.add_assoc,
      Nat.add_comm 1]

/-- Consecutive words of a buffer. `upd m` is the block with the buffer `m`, of which it has `n` words. -/
theorem drives_writeWords {loc : Nat → Loc} {upd : Memory 8 → State} {n j : Nat} {ws : List Word} {m : Memory 8}
    (hwrite : ∀ (m : Memory 8) (j : Nat) (v : Word), j < n →
      Drives [.wr (loc j) v] (upd m) (upd (Memory.writeAll m (4 * j) (bytesOfWord v))))
    (hn : j + ws.length ≤ n) :
    Drives (writeWords loc j ws) (upd m) (upd (Memory.writeAll m (4 * j) (ws.map bytesOfWord).flatten)) := by
  induction ws generalizing j m with
  | nil => exact Drives.nil _
  | cons w ws ih =>
    rw [List.length_cons] at hn
    rw [List.map_cons, List.flatten_cons, Memory.writeAll_append]
    exact (hwrite m j w (by omega)).cons (ih (j := j + 1) (by omega))

/-- The words that hold the bytes leave those bytes at the buffer's beginning. -/
theorem drives_writeBuffer {loc : Nat → Loc} {upd : Memory 8 → State} {n : Nat} {bytes : List Byte} {m : Memory 8}
    (hwrite : ∀ (m : Memory 8) (j : Nat) (v : Word), j < n →
      Drives [.wr (loc j) v] (upd m) (upd (Memory.writeAll m (4 * j) (bytesOfWord v))))
    (hn : bytes.length ≤ 4 * n) :
    ∃ m', Drives (writeWords loc 0 (bufferWords bytes)) (upd m) (upd m') ∧
      ∀ k (h : k < bytes.length), Memory.read m' k = bytes[k] := by
  obtain ⟨fill, hfill⟩ := bytes_bufferWords bytes
  refine ⟨_, drives_writeWords (m := m) hwrite (by rw [length_bufferWords]; omega), fun k hk => ?_⟩
  rw [hfill, Nat.mul_zero, Memory.read_writeAll, if_pos (by simp; omega)]
  simp [List.getElem?_append_left hk, hk]

/-- The data stands in SB, its length in SLEN, and nothing else is changed (R84). -/
theorem drives_loadData {s : State} {data : List Byte} (h : data.length ≤ s.params.symCap) :
    ∃ m, Drives (loadData data) s { s with sb := m, slen := BitVec.ofNat 32 data.length } ∧
      ∀ k (h : k < data.length), Memory.read m k = data[k] := by
  have hcap := s.params.symCap_mod
  obtain ⟨m, hm, hread⟩ := drives_writeBuffer (loc := .sb) (upd := fun m => { s with sb := m })
    (n := s.params.symCap / 4) (m := s.sb)
    (fun _ j _ hj => drives_wr (decide_eq_true (show 4 * j < s.params.symCap by omega)) rfl)
    (show data.length ≤ _ by omega)
  exact ⟨m, hm.append (drives_wr rfl rfl), hread⟩

/-- The stream stands in BB, its length in BLEN, and nothing else is changed (R85). -/
theorem drives_loadStream {s : State} {n : Nat} {bytes : List Byte} (h : bytes.length ≤ s.params.bbBytes) :
    ∃ m, Drives (loadStream n bytes) s { s with bb := m, blen := BitVec.ofNat 32 n } ∧
      ∀ k (h : k < bytes.length), Memory.read m k = bytes[k] := by
  have hcap := s.params.bbBytes_mod
  obtain ⟨m, hm, hread⟩ := drives_writeBuffer (loc := .bb) (upd := fun m => { s with bb := m })
    (n := s.params.bbBytes / 4) (m := s.bb)
    (fun _ j _ hj => drives_wr (decide_eq_true (show 4 * j < s.params.bbBytes by omega)) rfl)
    (show bytes.length ≤ _ by omega)
  exact ⟨m, hm.append (drives_wr rfl rfl), hread⟩

theorem drives_ctrl (s : State) (fmt : Format) : Drives [.wr .ctrl fmt.word] s { s with ctrlFmt := fmt } :=
  drives_wr rfl (by cases fmt <;> rfl)

/-! ### Reads, and what the host programs make of them (R84, R85) -/

/-- Reads of locations the block has return what they hold and change nothing (R33). -/
theorem runOps_reads {s : State} {locs : List Loc} (h : ∀ loc ∈ locs, loc.mapped s.params = true) :
    runOps (locs.map .rd) s = .next (s, locs.map fun loc => .data (readLoc s loc)) := by
  induction locs with
  | nil => rfl
  | cons loc locs ih =>
    exact runOps_cons (serve_read_mapped (h loc (by simp))) (ih fun l hl => h l (by simp [hl]))

theorem firstBusError_data (ops : List HostOp) (ws : List Word) : firstBusError ops (ws.map .data) = none := by
  induction ws generalizing ops with
  | nil => cases ops <;> rfl
  | cons w ws ih =>
    cases ops with
    | nil => rfl
    | cons op ops => simpa [firstBusError] using ih ops

@[simp] theorem readValues_data (ws : List Word) : readValues (ws.map .data) = ws := by
  induction ws with
  | nil => rfl
  | cons w ws ih => simp [readValues, ih]

theorem runProgram_reads {s : State} {locs : List Loc} (h : ∀ loc ∈ locs, loc.mapped s.params = true) :
    runProgram (locs.map .rd) s = .next (s, locs.map (readLoc s)) := by
  have hrun := runOps_reads h
  rw [← Function.comp_def, ← List.map_map] at hrun
  rcases runProgram_of_run hrun with ⟨-, hp⟩ | ⟨op, hb, -⟩
  · rw [hp, readValues_data]
  · rw [firstBusError_data] at hb; cases hb

/-- Where the operations leave no error latched, the program goes on from the state they leave. -/
theorem attempt_of_drives {α : Type} {ops : List HostOp} {s t : State}
    {k : State → Host.Outcome (State × Except ErrKind α) Fault Refusal} (h : Drives ops s t)
    (ht : t.statusErr = none) : attempt ops s k = k t := by
  have hstatus : readLoc t .status = 0 := by simp [readLoc, State.statusWord, State.errField, ht]
  have hread : runProgram [.rd .status] t = .next (t, [0]) := by
    simpa [hstatus] using runProgram_reads (s := t) (locs := [.status]) (by simp [Loc.mapped])
  have hrun : runProgram (ops ++ [.rd .status]) s = .next (t, [0]) := (h _).trans hread
  have hok : ErrKind.ofStatus 0 = none := rfl
  simp only [attempt, hrun, List.getLastD_cons, List.getLastD_nil, hok]

/-- The bytes of consecutive words of a buffer are its bytes in order (R35). -/
theorem unpackWords_bufferWords (m : Memory 8) (n : Nat) :
    unpackWords n ((List.range ((n + 3) / 4)).map (bufferWord m)) = (List.range n).map (Memory.read m) := by
  have hall (q : Nat) : (((List.range q).map (bufferWord m)).map bytesOfWord).flatten =
      (List.range (4 * q)).map (Memory.read m) := by
    induction q with
    | zero => rfl
    | succ q ih =>
      rw [List.range_succ, List.map_append, List.map_append, List.flatten_append, ih]
      simp [List.range_succ, Nat.mul_succ, bytesOfWord_bufferWord]
  rw [unpackWords, hall, ← List.map_take, List.take_range, Nat.min_eq_left (by omega)]

/-- What was written at the beginning of a memory is read back from it. -/
theorem Memory.map_read_writeAll {w : Nat} (m : Memory w) (vs : List (BitVec w)) :
    (List.range vs.length).map (Memory.read (Memory.writeAll m 0 vs)) = vs := by
  refine List.ext_getElem (by simp) fun k _ hk => ?_
  rw [List.getElem_map, List.getElem_range]
  simpa using Memory.read_writeAll_inside m 0 vs hk

/-- A buffer whose length the register `len` gives is read back as it stands. -/
theorem fetchBuffer_eq {α : Type} {len : Loc} {buf : Nat → Loc} {bytesOf : Nat → Nat} {result : Nat → List Byte → α}
    {s : State} {n : Nat} {m : Memory 8} (hlen : len.mapped s.params = true) (hn : (readLoc s len).toNat = n)
    (hbuf : ∀ j, 4 * j < bytesOf n → (buf j).mapped s.params = true ∧ readLoc s (buf j) = bufferWord m j) :
    fetchBuffer len buf bytesOf result s =
      .next (s, .ok (result n ((List.range (bytesOf n)).map (Memory.read m)))) := by
  have hj : ∀ j ∈ List.range ((bytesOf n + 3) / 4), 4 * j < bytesOf n := fun j h => by
    have := List.mem_range.1 h; omega
  have hreg : runProgram [.rd len] s = .next (s, [readLoc s len]) :=
    runProgram_reads (locs := [len]) (by simpa using hlen)
  have hread : runProgram (readBuffer buf (bytesOf n)) s =
      .next (s, (List.range ((bytesOf n + 3) / 4)).map (bufferWord m)) := by
    have h := runProgram_reads (s := s) (locs := (List.range ((bytesOf n + 3) / 4)).map buf) fun loc hloc => by
      obtain ⟨j, hmem, rfl⟩ := List.mem_map.1 hloc
      exact (hbuf j (hj j hmem)).1
    rw [List.map_map, List.map_map] at h
    refine h.trans ?_
    rw [List.map_congr_left (f := readLoc s ∘ buf) fun j hmem => (hbuf j (hj j hmem)).2]
  simp only [fetchBuffer, collect, hreg, List.headD_cons, hn, hread, unpackWords_bufferWords]

/-! ### compress (R84) -/

/-- The stream ENCODE committed is read back by its length (R84). -/
theorem fetchBuffer_commitEncode {α : Type} {s : State} {bits : List Bool} (result : Nat → List Byte → α)
    (hcap : bits.length ≤ bitCap s.params s.ctrlFmt) :
    fetchBuffer .blen .bb (fun n => streamBytes n s.ctrlFmt) result (commitEncode s bits) =
      .next (commitEncode s bits, .ok (result bits.length (packedBytes bits s.ctrlFmt))) := by
  have hlen : (readLoc (commitEncode s bits) .blen).toNat = bits.length :=
    toNat_ofNat_of_lt (by have := bitCap_le s.params s.ctrlFmt; omega)
  have hmapped (j : Nat) (hj : 4 * j < streamBytes bits.length s.ctrlFmt) :
      (Loc.bb j).mapped (commitEncode s bits).params = true :=
    decide_eq_true (hj.trans_le (streamBytes_le hcap))
  rw [fetchBuffer_eq (m := (commitEncode s bits).bb) rfl hlen fun j hj => ⟨hmapped j hj, rfl⟩, ← length_packedBytes,
    commitEncode_bb, Memory.map_read_writeAll]

/-- The symbols DECODE committed are read back by their number (R85). -/
theorem fetchBuffer_commitDecode {α : Type} {s : State} {out : List Byte} (result : Nat → List Byte → α)
    (hfit : out.length ≤ s.params.symCap) :
    fetchBuffer .slen .sb (fun m => m) result (commitDecode s out) =
      .next (commitDecode s out, .ok (result out.length out)) := by
  have hlen : (readLoc (commitDecode s out) .slen).toNat = out.length :=
    toNat_ofNat_of_lt (by have := s.params.symCap_le; omega)
  have hmapped (j : Nat) (hj : 4 * j < out.length) : (Loc.sb j).mapped (commitDecode s out).params = true :=
    decide_eq_true (hj.trans_le hfit)
  rw [fetchBuffer_eq (m := (commitDecode s out).sb) rfl hlen fun j hj => ⟨hmapped j hj, rfl⟩, commitDecode_sb,
    Memory.map_read_writeAll]

theorem execEncode_of_encBits {s : State} {bits : List Bool} (hs : s.statusErr = none) (h : encBits s = .ok bits) :
    execEncode s = .next (commitEncode s bits) := by
  rw [execEncode, State.unlessLatched_clear hs, h]

theorem execDecode_of_decodedSymbols {s : State} {out : List Byte} (hs : s.statusErr = none)
    (h : decodedSymbols s = .ok out) : execDecode s = .next (commitDecode s out) := by
  rw [execDecode, State.unlessLatched_clear hs, h]

/-- The block as compress has loaded it before ENCODE: both tables, the format, the data and its length. -/
def State.loadedForEncode (s : State) (ct tm : Memory 32) (fmt : Format) (sb : List Host.Cell) (n : Nat) : State :=
  { s with ct := ct, tm := tm, ctrlFmt := fmt, sb := sb, slen := BitVec.ofNat 32 n }

/-- The loads of compress leave consistent tables and the data in SB (R84, R87). -/
theorem drives_loadsOfCompress {s : State} {data : List Byte} {fmt : Format} {t : HTree} (hs : s.statusErr = none)
    (hnode : t.isNode = true) (hnodup : t.symbols.Nodup) (hsize : t.size ≤ 511) (hdepth : t.depth ≤ 255)
    (hfit : data.length ≤ s.params.symCap) :
    ∃ ct tm sb, ConsistentWith (s.loadedForEncode ct tm fmt sb data.length) t ∧
      (∀ k (h : k < data.length), Memory.read sb k = data[k]) ∧
      ∀ u, Drives [.command .encode] (s.loadedForEncode ct tm fmt sb data.length) u →
        Drives (compressOps data fmt t (codeWalk t [])) s u := by
  have hkeys : ((codeWalk t []).map Prod.fst).Nodup := (codeWalk_map_fst t []).symm ▸ hnodup
  have hlens : ∀ e ∈ codeWalk t [], e.2.length ≤ 255 := fun e he =>
    (length_le_of_mem_codeWalk he).trans (by simpa using hdepth)
  obtain ⟨ct, hct, hctread⟩ := drives_clrct_loadCt hs hkeys hlens
  obtain ⟨tm, htm, htmread⟩ := drives_clrtm_loadTm (s := { s with ct := ct }) (t := t) hs (by omega)
  obtain ⟨sb, hsb, hsbread⟩ := drives_loadData (s := { s with ct := ct, tm := tm, ctrlFmt := fmt }) (data := data) hfit
  refine ⟨ct, tm, sb, ?_, hsbread, fun u hu => hct.append (htm.append ((drives_ctrl _ fmt).append (hsb.append hu)))⟩
  refine imagesAreConsistent _ t _ hnodup hsize hdepth (codeTable_eq_some.2 ⟨hnode, rfl⟩) (fun i hi => ?_) hctread
  exact (State.tmWord_ofNat _ hi).trans (htmread i hi)

/-- On nonempty data compress is the program over the tree of its counts, which has a code table (R79). -/
theorem compress_of_buildTree {s : State} {data : List Byte} {fmt : Format} {t : HTree} (hne : data ≠ [])
    (ht : buildTree (frequencyCount data) = .ok t) :
    compress data fmt s = attempt (compressOps data fmt t (codeWalk t [])) s
      (fetchBuffer .blen .bb (fun n => streamBytes n fmt) fun n bytes => ⟨n, bytes, fmt, t⟩) := by
  have hc : codeTable t = some (codeWalk t []) := codeTable_eq_some.2 ⟨isNode_of_buildTree ht, rfl⟩
  simp only [compress, if_neg hne, ht, hc]

/-- compress of data that fits succeeds with the tree's codes of the data, packed under the format. -/
theorem compress_eq {s : State} {data : List Byte} {fmt : Format} {t : HTree} (hs : s.statusErr = none)
    (hne : data ≠ []) (hfit : data.length ≤ s.params.symCap) (ht : buildTree (frequencyCount data) = .ok t)
    (hcap : (t.codesOf data).length ≤ bitCap s.params fmt) :
    ∃ u, compress data fmt s =
      .next (u, .ok ⟨(t.codesOf data).length, packedBytes (t.codesOf data) fmt, fmt, t⟩) := by
  have hnode := isNode_of_buildTree ht
  obtain ⟨ct, tm, sb, hcons, hsb, hdrives⟩ := drives_loadsOfCompress (fmt := fmt) hs hnode
    (nodup_symbols_of_buildTree ht) (size_le_of_buildTree ht) (depth_le_of_buildTree ht) hfit
  have hlen : (BitVec.ofNat 32 data.length).toNat = data.length :=
    toNat_ofNat_of_lt (by have := s.params.symCap_le; omega)
  have henc := encBits_of_consistent hcons hlen hfit hsb (mem_symbols_of_buildTree ht) hcap
  have hops := hdrives _ (drives_command (i := .encode) (execEncode_of_encBits hs henc))
  have hfetch := fetchBuffer_commitEncode (s := s.loadedForEncode ct tm fmt sb data.length)
    (fun n bytes => EncodedResult.mk n bytes fmt t) hcap
  exact ⟨_, (compress_of_buildTree hne ht).trans ((attempt_of_drives hops hs).trans hfetch)⟩

/-! ### decompress (R85) -/

/-- A bit character is read from one byte of BB, which is one of those a longer stream takes. -/
theorem State.bitChar_congr {s u : State} {f : Format} {n p : Nat} (hp : p < n)
    (h : ∀ k < streamBytes n f, s.bbByte k = u.bbByte k) : s.bitChar f p = u.bitChar f p := by
  cases f with
  | packed => simp only [State.bitChar, h (p / 8) (show p / 8 < (n + 7) / 8 by omega)]
  | character => simp only [State.bitChar, h p hp]

/-- The bytes of a packed sequence in BB, and its length in BLEN, are that stream (R57). -/
theorem State.streamIs_of_packedBytes {s : State} {bits : List Bool} (hlen : s.blen.toNat = bits.length)
    (h : ∀ k (h : k < (packedBytes bits s.ctrlFmt).length), s.bbByte k = (packedBytes bits s.ctrlFmt)[k]) :
    s.streamIs bits := by
  refine ⟨hlen, fun p hp => ?_⟩
  rw [← s.bitChar_putBb_packedBytes s.ctrlFmt hp]
  refine State.bitChar_congr hp fun k hk => ?_
  rw [← length_packedBytes] at hk
  rw [h k hk, s.bbByte_putBb_zero hk]

/-- The block as decompress has loaded it before DECODE: the tree, the format, the stream and its length. -/
def State.loadedForDecode (s : State) (tm : Memory 32) (fmt : Format) (bb : List Host.Cell) (n : Nat) : State :=
  { s with tm := tm, ctrlFmt := fmt, bb := bb, blen := BitVec.ofNat 32 n }

/-- The loads of decompress leave the tree laid out in TM and the stream in BB (R85). -/
theorem drives_loadsOfDecompress {s : State} {t : HTree} {bits : List Bool} {fmt : Format} (hs : s.statusErr = none)
    (hnode : t.isNode = true) (hsize : t.size ≤ 511) (hcap : bits.length ≤ bitCap s.params fmt) :
    ∃ tm bb, t.layoutIn (s.loadedForDecode tm fmt bb bits.length) ∧
      (s.loadedForDecode tm fmt bb bits.length).streamIs bits ∧
      ∀ u, Drives [.command .decode] (s.loadedForDecode tm fmt bb bits.length) u →
        Drives (decompressOps ⟨bits.length, packedBytes bits fmt, fmt, t⟩) s u := by
  have hblen : (BitVec.ofNat 32 bits.length).toNat = bits.length :=
    toNat_ofNat_of_lt (by have := bitCap_le s.params fmt; omega)
  obtain ⟨tm, htm, htmread⟩ := drives_clrtm_loadTm hs (show t.size ≤ 512 by omega)
  obtain ⟨bb, hbb, hbbread⟩ := drives_loadStream (s := { s with tm := tm, ctrlFmt := fmt }) (n := bits.length)
    (bytes := packedBytes bits fmt) (by rw [length_packedBytes]; exact streamBytes_le hcap)
  refine ⟨tm, bb, HTree.layoutIn_of_tmHolds hnode hsize (State.tmHolds_tmImage hsize fun i hi => ?_),
    State.streamIs_of_packedBytes hblen hbbread,
    fun u hu => htm.append ((drives_ctrl _ fmt).append (hbb.append hu))⟩
  exact (State.tmWord_ofNat _ hi).trans (htmread i hi)

/-- decompress of a tree's codes of symbols that fit SB gives the symbols. -/
theorem decompress_eq {s : State} {t : HTree} {syms : List Byte} {fmt : Format} (hs : s.statusErr = none)
    (hnode : t.isNode = true) (hsize : t.size ≤ 511) (hsyms : ∀ y ∈ syms, y ∈ t.symbols)
    (hfit : syms.length ≤ s.params.symCap) (hcap : (t.codesOf syms).length ≤ bitCap s.params fmt) :
    ∃ u, decompress ⟨(t.codesOf syms).length, packedBytes (t.codesOf syms) fmt, fmt, t⟩ s = .next (u, .ok syms) := by
  obtain ⟨tm, bb, hlayout, hstream, hdrives⟩ := drives_loadsOfDecompress hs hnode hsize hcap
  have hdec := decodedSymbols_of_layoutIn hlayout hsyms hfit (hstream.1.trans_le hcap) hstream
  have hops := hdrives _ (drives_command (i := .decode) (execDecode_of_decodedSymbols hs hdec))
  exact ⟨_, (attempt_of_drives hops hs).trans (fetchBuffer_commitDecode _ hfit)⟩

/-- Settles O55: the result of compress is the stream and tree that decompress follows. -/
theorem compressThenDecompress : Obligations.CompressThenDecompress := by
  unfold Obligations.CompressThenDecompress
  intro s u data fmt t hs hu hparams hne hfit ht hcap
  obtain ⟨s', hcompress⟩ := compress_eq hs hne hfit ht hcap
  obtain ⟨u', hdecompress⟩ := decompress_eq hu (isNode_of_buildTree ht) (size_le_of_buildTree ht)
    (mem_symbols_of_buildTree ht) (hparams ▸ hfit) (hparams ▸ hcap)
  exact ⟨s', _, u', hcompress, rfl, hdecompress⟩

end Sys2Proof.Machine

/-!
PROOFS. ENCODE (spec/41_encoder.md): where its loop ends (R92, R95), the bytes it commits (R93), what it guarantees on
success (R96) and on what its result depends (R96, R97).
-/

namespace Sys2Proof.Machine

/-! ### The codes of the data: where they stand and how long they are (R92, R96) -/

/-- The codes of two stretches of the data, one after the other. -/
theorem State.codesFrom_add (s : State) (i m n : Nat) :
    s.codesFrom i (m + n) = s.codesFrom i m ++ s.codesFrom (i + m) n := by
  simp [State.codesFrom, List.range_add, Function.comp_def, Nat.add_assoc]

/-- R23: LEN is at most 255. -/
theorem State.lensFrom_le (s : State) (i n : Nat) : s.lensFrom i n ≤ 255 * n := by
  induction n with
  | zero => exact le_rfl
  | succ n ih =>
    have := s.ctLen_le (s.sbByte (i + n))
    rw [State.lensFrom_succ_last]; omega

/-- A present code has at least one bit. -/
theorem State.le_lensFrom {s : State} {i n : Nat} (h : ∀ j < n, s.ctLen (s.sbByte (i + j)) ≠ 0) :
    n ≤ s.lensFrom i n := by
  induction n with
  | zero => exact le_rfl
  | succ n ih =>
    have := ih fun j hj => h j (by omega)
    have := h n (by omega)
    rw [State.lensFrom_succ_last]; omega

theorem State.padBit_codeBits {s : State} {y : Byte} {q : Nat} (h : q < s.ctLen y) :
    padBit (s.codeBits y) q = s.codeBit y q := by
  rw [padBit_of_lt (by simpa using h)]
  simp [State.codeBits]

/-- Bit q of the i-th code stands q bits after the codes before it (R96). -/
theorem State.padBit_codesFrom {s : State} {n i q : Nat} (hi : i < n) (hq : q < s.ctLen (s.sbByte i)) :
    padBit (s.codesFrom 0 n) (s.lensFrom 0 i + q) = s.codeBit (s.sbByte i) q := by
  obtain ⟨d, rfl⟩ : ∃ d, n = i + (d + 1) := ⟨n - i - 1, by omega⟩
  rw [← State.padBit_codeBits hq, State.codesFrom_add, State.codesFrom_succ, Nat.zero_add, padBit, padBit,
    List.getD_append_right _ _ _ _ (by simp), State.length_codesFrom, Nat.add_sub_cancel_left,
    List.getD_append _ _ _ _ (by simpa using hq)]

/-! ### The loop, and where it ends (R90, R95) -/

/-- A symbol that has a code that fits is passed. -/
theorem encodeFrom_of_fits {s : State} {cap left i : Nat} {bits : List Bool} (hcoded : s.ctLen (s.sbByte i) ≠ 0)
    (hfit : bits.length + s.ctLen (s.sbByte i) ≤ cap) :
    encodeFrom s cap (left + 1) i bits = encodeFrom s cap left (i + 1) (bits ++ s.codeBits (s.sbByte i)) := by
  rw [encodeFrom, if_neg hcoded, if_neg (Nat.not_lt.2 hfit)]

theorem encodeFrom_of_absent {s : State} {cap left i : Nat} {bits : List Bool} (h : s.ctLen (s.sbByte i) = 0) :
    encodeFrom s cap (left + 1) i bits = .error ⟨.lookupError, BitVec.ofNat 32 i⟩ := by
  rw [encodeFrom, if_pos h]

theorem encodeFrom_of_overflow {s : State} {cap left i : Nat} {bits : List Bool}
    (hcoded : s.ctLen (s.sbByte i) ≠ 0) (hover : cap < bits.length + s.ctLen (s.sbByte i)) :
    encodeFrom s cap (left + 1) i bits = .error ⟨.overflow, BitVec.ofNat 32 i⟩ := by
  rw [encodeFrom, if_neg hcoded, if_pos hover]

/-- A stretch of symbols that have codes which fit is passed, and their codes stand behind the bits so far. -/
theorem encodeFrom_add {s : State} {cap m left i : Nat} {bits : List Bool}
    (hcoded : ∀ j < m, s.ctLen (s.sbByte (i + j)) ≠ 0) (hfit : bits.length + s.lensFrom i m ≤ cap) :
    encodeFrom s cap (m + left) i bits = encodeFrom s cap left (i + m) (bits ++ s.codesFrom i m) := by
  induction m generalizing left with
  | zero => simp [State.codesFrom_zero]
  | succ m ih =>
    rw [State.lensFrom_succ_last] at hfit
    have hlast : s.codesFrom i (m + 1) = s.codesFrom i m ++ s.codeBits (s.sbByte (i + m)) := by
      rw [State.codesFrom_add, State.codesFrom_succ, State.codesFrom_zero, List.append_nil]
    rw [Nat.add_right_comm, Nat.add_assoc m, ih (fun j hj => hcoded j (by omega)) (by omega),
      encodeFrom_of_fits (hcoded m (by omega)) (by simp; omega), hlast, List.append_assoc, Nat.add_assoc]

/-- EncBits comes to symbol i where the data fits SB and every symbol before i has been passed. -/
theorem encBits_eq_encodeFrom {s : State} {i : Nat} (hi : i < s.slen.toNat) (hcap : s.slen.toNat ≤ s.params.symCap)
    (hcoded : ∀ j < i, s.ctLen (s.sbByte j) ≠ 0) (hfit : s.lensFrom 0 i ≤ bitCap s.params s.ctrlFmt) :
    encBits s =
      encodeFrom s (bitCap s.params s.ctrlFmt) (s.slen.toNat - i - 1 + 1) i (s.codesFrom 0 i) := by
  have hskip := encodeFrom_add (s := s) (i := 0) (bits := []) (left := s.slen.toNat - i - 1 + 1)
    (fun j hj => by simpa using hcoded j hj) (by simpa using hfit)
  rw [show i + (s.slen.toNat - i - 1 + 1) = s.slen.toNat by omega, Nat.zero_add, List.nil_append] at hskip
  rw [encBits, if_neg (Nat.not_lt.2 hcap), hskip]

/-- An error of EncBits is raised, and nothing else is written (R94, R128). -/
theorem execEncode_of_error {s : State} {r : Raised} (hs : s.statusErr = none) (h : encBits s = .error r) :
    execEncode s = .next (s.raise r.kind r.pos) := by
  rw [execEncode, State.unlessLatched_clear hs, h]

/-- Settles O32: the loop comes to the first symbol that fails and ends there. -/
theorem encodeErrorsInOrder : Obligations.EncodeErrorsInOrder := by
  unfold Obligations.EncodeErrorsInOrder
  intro s hs
  refine ⟨fun hlong => ?_, fun i hi hcap hcoded hfit => ⟨fun habsent => ?_, fun hpresent hover => ?_⟩,
    fun t ht => ?_⟩
  · exact execEncode_of_error (r := ⟨.overflow, _⟩) hs (if_pos hlong)
  · exact execEncode_of_error hs
      ((encBits_eq_encodeFrom hi hcap hcoded hfit).trans (encodeFrom_of_absent habsent))
  · exact execEncode_of_error hs ((encBits_eq_encodeFrom hi hcap hcoded hfit).trans
      (encodeFrom_of_overflow hpresent (by simpa using hover)))
  · rcases execEncode_cases s with ⟨hlatched, _⟩ | ⟨_, r, hr, he⟩ | ⟨_, bits, _, he⟩
    · exact absurd hs hlatched
    · cases he.symm.trans ht
      exact .inr ((encBits_error_kind hr).imp (congrArg some) (congrArg some))
    · cases he.symm.trans ht
      exact .inl hs

/-! ### The commit (R93, R94) -/

/-- A sum of bits weighted from 2^n down is below 2^(n + 1). -/
theorem sum_bits_lt (f : Nat → Bool) (n : Nat) :
    ((List.range (n + 1)).map fun i => (f i).toNat * 2 ^ (n - i)).sum < 2 ^ (n + 1) := by
  induction n with
  | zero => cases hf : f 0 <;> simp [hf]
  | succ n ih =>
    have := (f (n + 1)).toNat_lt
    rw [sum_bits_succ, Nat.bit_val]
    omega

/-- The sum of a packed byte is below 256, so the byte is the sum (R93). -/
theorem packByte_toNat (bits : List Bool) (k : Nat) :
    (packByte bits k).toNat = ∑ j ∈ Finset.range 8, (padBit bits (8 * k + j)).toNat * 2 ^ (7 - j) := by
  rw [packByte, BitVec.toNat_ofNat, Nat.mod_eq_of_lt (sum_bits_lt (fun j => padBit bits (8 * k + j)) 7)]
  rfl

theorem charByte_toNat (b : Bool) : (charByte b).toNat = 0x30 + b.toNat := by
  cases b <;> rfl

/-- The bytes of the result (R93). -/
theorem bbByte_commitEncode_of_lt {s : State} {bits : List Bool} {k : Nat}
    (h : k < (packedBytes bits s.ctrlFmt).length) :
    (commitEncode s bits).bbByte k = (packedBytes bits s.ctrlFmt)[k] :=
  s.bbByte_putBb_zero h

/-- Every other byte of BB is as before (R93). -/
theorem bbByte_commitEncode_of_ge {s : State} {bits : List Bool} {k : Nat}
    (h : streamBytes bits.length s.ctrlFmt ≤ k) : (commitEncode s bits).bbByte k = s.bbByte k :=
  Memory.read_writeAll_outside _ _ _ (.inr (by rwa [Nat.zero_add, length_packedBytes]))

/-- BLEN holds the length without loss, because a result that fits BB is far shorter than 2^32 (log 10). -/
theorem blen_commitEncode_toNat {s : State} {bits : List Bool} (h : encBits s = .ok bits) :
    (commitEncode s bits).blen.toNat = bits.length := by
  obtain ⟨⟨_, _, hfit⟩, rfl⟩ := encodable_of_encBits h
  have := bitCap_le s.params s.ctrlFmt
  exact toNat_ofNat_of_lt (by rw [State.length_codesFrom]; omega)

/-- Settles O31: the commit of the concatenated codes, byte by byte. -/
theorem encodePacksTheCodes : Obligations.EncodePacksTheCodes := by
  unfold Obligations.EncodePacksTheCodes
  intro s hs hencodable
  have hbits := encBits_of_encodable hencodable
  refine ⟨_, execEncode_of_encBits hs hbits, rfl, blen_commitEncode_toNat hbits, s.length_codesFrom _ _, ?_⟩
  generalize s.codesFrom 0 s.slen.toNat = bits
  have hlen := length_packedBytes bits s.ctrlFmt
  split <;> rename_i hfmt
  · refine ⟨fun k hk => ?_, fun k hk => bbByte_commitEncode_of_ge (by rwa [hfmt])⟩
    rw [bbByte_commitEncode_of_lt (by rwa [hlen, hfmt]), ← packByte_toNat]
    simp [hfmt, packedBytes]
  · refine ⟨fun p hp => ?_, fun p hp => bbByte_commitEncode_of_ge (by rwa [hfmt])⟩
    rw [bbByte_commitEncode_of_lt (by rwa [hlen, hfmt]), padBit_of_lt hp, ← charByte_toNat]
    simp [hfmt, packedBytes]

/-! ### On what the result depends (R96, R97 e, f, g) -/

/-- The loop reads the symbols it passes and their codes only. -/
theorem encodeFrom_congr {s u : State} {cap left i : Nat} {bits : List Bool}
    (hsb : ∀ j < left, u.sbByte (i + j) = s.sbByte (i + j))
    (hct : ∀ j < left, u.ctLen (s.sbByte (i + j)) = s.ctLen (s.sbByte (i + j)) ∧
      u.codeBits (s.sbByte (i + j)) = s.codeBits (s.sbByte (i + j))) :
    encodeFrom u cap left i bits = encodeFrom s cap left i bits := by
  induction left generalizing i bits with
  | zero => rfl
  | succ left ih =>
    have hshift (j : Nat) : i + 1 + j = i + (j + 1) := by omega
    have htail (bits : List Bool) : encodeFrom u cap left (i + 1) bits = encodeFrom s cap left (i + 1) bits :=
      ih (fun j hj => by rw [hshift]; exact hsb _ (by omega)) fun j hj => by rw [hshift]; exact hct _ (by omega)
    obtain ⟨hlen, hcode⟩ : u.ctLen (s.sbByte i) = s.ctLen (s.sbByte i) ∧ _ := hct 0 (by omega)
    have hsym : u.sbByte i = s.sbByte i := hsb 0 (by omega)
    rw [Nat.add_zero] at hcode
    simp only [encodeFrom, hsym, hlen, hcode, htail]

/-- Two commits of one sequence under one format leave the same bytes of the result. -/
theorem bbByte_commitEncode_congr {s u : State} {bits : List Bool} {k : Nat} (hfmt : u.ctrlFmt = s.ctrlFmt)
    (h : k < streamBytes bits.length s.ctrlFmt) : (commitEncode u bits).bbByte k = (commitEncode s bits).bbByte k := by
  rw [← length_packedBytes] at h
  rw [bbByte_commitEncode_of_lt h, bbByte_commitEncode_of_lt (hfmt ▸ h)]
  simp only [hfmt]

/-- Settles O34: both states have the same EncBits, hence the same error or the same sequence to commit. -/
theorem encodeReadsOnlyItsInputs : Obligations.EncodeReadsOnlyItsInputs := by
  unfold Obligations.EncodeReadsOnlyItsInputs
  intro s u hs hu hparams hfmt hslen hsb hct
  have hsame : encBits u = encBits s := by
    simp only [encBits, hparams, hfmt, hslen,
      encodeFrom_congr (i := 0) (by simpa using hsb) (by simpa using hct)]
  cases hbits : encBits s with
  | error r =>
    refine ⟨_, _, execEncode_of_error hs hbits, execEncode_of_error hu (hsame.trans hbits), rfl, fun _ => rfl, ?_⟩
    simp
  | ok bits =>
    refine ⟨_, _, execEncode_of_encBits hs hbits, execEncode_of_encBits hu (hsame.trans hbits), hu.trans hs.symm,
      fun h => absurd hs h, fun _ => ⟨rfl, fun k hk => ?_⟩⟩
    rw [blen_commitEncode_toNat hbits] at hk
    exact bbByte_commitEncode_congr hfmt hk

/-! ### What a success guarantees (R96) -/

/-- ENCODE ends with no error latched only by its commit. -/
theorem commitEncode_of_exec {s t : State} (hs : s.statusErr = none) (h : exec .encode s = .next t)
    (ht : t.statusErr = none) :
    ∃ bits, encBits s = .ok bits ∧ t = commitEncode s bits := by
  rcases execEncode_cases s with ⟨hlatched, _⟩ | ⟨_, r, _, he⟩ | ⟨_, bits, hbits, he⟩
  · exact absurd hs hlatched
  · cases he.symm.trans h; cases ht
  · cases he.symm.trans h; exact ⟨bits, hbits, rfl⟩

/-- The result is a function of SLEN, SB, CT and the format: O34 with the symbols and their codes read from them. -/
theorem encode_deterministic {s t u v : State} (hs : s.statusErr = none) (h : exec .encode s = .next t)
    (ht : t.statusErr = none) (hu : u.statusErr = none) (hparams : u.params = s.params)
    (hfmt : u.ctrlFmt = s.ctrlFmt) (hslen : u.slen = s.slen) (hsb : ∀ k, u.sbByte k = s.sbByte k)
    (hct : ∀ y k, u.ctWord y k = s.ctWord y k) (hv : exec .encode u = .next v) :
    v.statusErr = none ∧ v.blen = t.blen ∧ ∀ k < streamBytes t.blen.toNat s.ctrlFmt, v.bbByte k = t.bbByte k := by
  have hlen (y : Byte) : u.ctLen y = s.ctLen y := by simp only [State.ctLen, hct]
  have hbit (y : Byte) : u.codeBit y = s.codeBit y := by funext i; simp only [State.codeBit, hct]
  have hcode (y : Byte) : u.codeBits y = s.codeBits y := by simp only [State.codeBits, hlen, hbit]
  obtain ⟨t', v', ht', hv', herr, _, hresult⟩ :=
    encodeReadsOnlyItsInputs s u hs hu hparams hfmt hslen (fun i _ => hsb i) fun i _ => ⟨hlen _, hcode _⟩
  cases ht'.symm.trans h
  cases hv'.symm.trans hv
  exact ⟨herr.trans ht, hresult ht⟩

/-- A commit leaves ENCODE's inputs as they were, so ENCODE again leaves the result and the bytes behind it. -/
theorem encode_again {s t u : State} (hs : s.statusErr = none) (h : exec .encode s = .next t)
    (ht : t.statusErr = none) (hu : exec .encode t = .next u) :
    u.statusErr = none ∧ u.blen = t.blen ∧ ∀ k, u.bbByte k = t.bbByte k := by
  obtain ⟨bits, _, rfl⟩ := commitEncode_of_exec hs h ht
  obtain ⟨herr, hblen, hinside⟩ :=
    encode_deterministic hs h ht ht rfl rfl rfl (fun _ => rfl) (fun _ _ => rfl) hu
  refine ⟨herr, hblen, fun k => ?_⟩
  rcases Nat.lt_or_ge k (streamBytes (commitEncode s bits).blen.toNat s.ctrlFmt) with hk | hk
  · exact hinside k hk
  · obtain ⟨bits', hbits', rfl⟩ := commitEncode_of_exec ht hu herr
    rw [← hblen, blen_commitEncode_toNat hbits'] at hk
    exact bbByte_commitEncode_of_ge hk

/-- The bits of symbol i stand behind those of the symbols before it. -/
theorem bitChar_commitEncode_codesFrom {s : State} {n i q : Nat} (hi : i < n) (hq : q < s.ctLen (s.sbByte i)) :
    (commitEncode s (s.codesFrom 0 n)).bitChar s.ctrlFmt (s.lensFrom 0 i + q) =
      BitChar.ofBool (s.codeBit (s.sbByte i) q) := by
  have hlt : s.lensFrom 0 i + q < (s.codesFrom 0 n).length := by
    have := s.lensFrom_mono 0 (Nat.succ_le_of_lt hi)
    rw [State.lensFrom_succ_last, Nat.zero_add] at this
    rw [State.length_codesFrom]; omega
  rw [← State.padBit_codesFrom hi hq]
  exact s.bitChar_putBb_packedBytes s.ctrlFmt hlt

/-- Settles O33: the result is the codes of the data, each of 1 to 255 bits. -/
theorem encodeGuarantees : Obligations.EncodeGuarantees := by
  unfold Obligations.EncodeGuarantees
  intro s t hs h ht
  have hagain (u : State) := encode_again (u := u) hs h ht
  have hfunction (u v : State) := encode_deterministic (u := u) (v := v) hs h ht
  obtain ⟨bits, hbits, rfl⟩ := commitEncode_of_exec hs h ht
  obtain ⟨⟨_, hcoded, _⟩, rfl⟩ := encodable_of_encBits hbits
  have hblen := blen_commitEncode_toNat hbits
  rw [State.length_codesFrom] at hblen
  have hlow : s.slen.toNat ≤ s.lensFrom 0 s.slen.toNat := State.le_lensFrom (by simpa using hcoded)
  have hhigh := s.lensFrom_le 0 s.slen.toNat
  have hzero : (commitEncode s (s.codesFrom 0 s.slen.toNat)).blen = 0 ↔ s.slen = 0 := by
    rw [BitVec.toNat_eq, BitVec.toNat_eq, hblen]
    change _ = 0 ↔ _ = 0
    omega
  exact ⟨hblen, hzero, hblen ▸ hlow, hblen ▸ hhigh, fun i hi q => bitChar_commitEncode_codesFrom hi, hagain,
    hfunction⟩

end Sys2Proof.Machine

/-!
PROOFS. DECODE (spec/42_decoder.md): what one step of the walker does (R103), the outcome of the command by its walk
(R104 to R106), its result over the tables of a tree (R87, R100), on what it depends (R109), and the round trip (R110).
-/

namespace Sys2Proof.Machine

/-! ### The outcome by the walk (R104, R105) -/

/-- An error of the walk, or of the length, is raised, and nothing else is written (R105, R128). -/
theorem execDecode_of_error {s : State} {r : Raised} (hs : s.statusErr = none) (h : decodedSymbols s = .error r) :
    execDecode s = .next (s.raise r.kind r.pos) := by
  rw [execDecode, State.unlessLatched_clear hs, h]

theorem decodedSymbols_of_overlong {s : State} (h : bitCap s.params s.ctrlFmt < s.blen.toNat) :
    decodedSymbols s = .error ⟨.overflow, BitVec.ofNat 32 (bitCap s.params s.ctrlFmt)⟩ :=
  if_pos h

theorem decodedSymbols_of_walk_error {s : State} {r : Raised} (hcap : s.blen.toNat ≤ bitCap s.params s.ctrlFmt)
    (h : walkFrom s s.blen.toNat 0 ⟨root, []⟩ = .error r) : decodedSymbols s = .error r := by
  rw [decodedSymbols, if_neg (Nat.not_lt.2 hcap), h]

/-- At exhaustion the cursor alone decides (R104). -/
theorem decodedSymbols_of_walk_ok {s : State} {w : Walk} (hcap : s.blen.toNat ≤ bitCap s.params s.ctrlFmt)
    (h : walkFrom s s.blen.toNat 0 ⟨root, []⟩ = .ok w) :
    decodedSymbols s = if w.cur = root then .ok w.out else .error ⟨.malformedStream, s.blen⟩ := by
  rw [decodedSymbols, if_neg (Nat.not_lt.2 hcap), h]

/-- DECODE fails on the length, in the walk, or at exhaustion (R106). -/
theorem decodedSymbols_error {s : State} {r : Raised} (h : decodedSymbols s = .error r) :
    (bitCap s.params s.ctrlFmt < s.blen.toNat ∧ r = ⟨.overflow, BitVec.ofNat 32 (bitCap s.params s.ctrlFmt)⟩) ∨
    (s.blen.toNat ≤ bitCap s.params s.ctrlFmt ∧
      (walkFrom s s.blen.toNat 0 ⟨root, []⟩ = .error r ∨
        ∃ w, walkFrom s s.blen.toNat 0 ⟨root, []⟩ = .ok w ∧ w.cur ≠ root ∧ r = ⟨.malformedStream, s.blen⟩)) := by
  rcases Nat.lt_or_ge (bitCap s.params s.ctrlFmt) s.blen.toNat with hlong | hcap
  · cases (decodedSymbols_of_overlong hlong).symm.trans h
    exact .inl ⟨hlong, rfl⟩
  · refine .inr ⟨hcap, ?_⟩
    cases hwalk : walkFrom s s.blen.toNat 0 ⟨root, []⟩ with
    | error r' =>
      cases (decodedSymbols_of_walk_error hcap hwalk).symm.trans h
      exact .inl rfl
    | ok w =>
      rw [decodedSymbols_of_walk_ok hcap hwalk] at h
      split at h <;> cases h
      exact .inr ⟨w, rfl, ‹_›, rfl⟩

/-- DECODE answers at most one symbol a bit, and never more than SB holds (R107, R108). -/
theorem length_decodedSymbols {s : State} {out : List Byte} (h : decodedSymbols s = .ok out) :
    out.length ≤ s.blen.toNat ∧ out.length ≤ s.params.symCap := by
  obtain ⟨-, hwalk⟩ := decodedSymbols_ok h
  obtain ⟨-, hbits, hfit⟩ := walkFrom_ok hwalk (Nat.zero_le _)
  exact ⟨by simpa using hbits, hfit⟩

/-! ### The commit (R105) -/

theorem sbByte_commitDecode_of_lt {s : State} {out : List Byte} {k : Nat} (h : k < out.length) :
    (commitDecode s out).sbByte k = out[k] := by
  simpa [State.sbByte] using Memory.read_writeAll_inside s.sb 0 out h

theorem sbByte_commitDecode_of_ge {s : State} {out : List Byte} {k : Nat} (h : out.length ≤ k) :
    (commitDecode s out).sbByte k = s.sbByte k :=
  Memory.read_writeAll_outside _ _ _ (.inr (by rwa [Nat.zero_add]))

/-- SLEN holds the number of symbols without loss, because it is at most SYM_CAP (log 10). -/
theorem slen_commitDecode_toNat {s : State} {out : List Byte} (h : decodedSymbols s = .ok out) :
    (commitDecode s out).slen.toNat = out.length := by
  have hfit := (length_decodedSymbols h).2
  have := s.params.symCap_le
  exact toNat_ofNat_of_lt (by omega)

/-- What the host finds after a DECODE that answers these symbols. -/
theorem exec_decode_commits {s : State} {out : List Byte} (hs : s.statusErr = none) (h : decodedSymbols s = .ok out) :
    ∃ t, exec .decode s = .next t ∧ t = { s with sb := t.sb, slen := t.slen } ∧ t.slen.toNat = out.length ∧
      (∀ k < out.length, t.sbByte k = out.getD k 0) ∧ ∀ k ≥ out.length, t.sbByte k = s.sbByte k := by
  refine ⟨commitDecode s out, execDecode_of_decodedSymbols hs h, rfl, slen_commitDecode_toNat h, fun k hk => ?_,
    fun k hk => sbByte_commitDecode_of_ge hk⟩
  rw [sbByte_commitDecode_of_lt hk, List.getD_eq_getElem _ _ hk]

/-! ### The round trip (R110) -/

/-- SB[0 .. SLEN-1] (R92). -/
def State.data (s : State) : List Byte := (List.range s.slen.toNat).map s.sbByte

@[simp] theorem State.length_data (s : State) : s.data.length = s.slen.toNat := by
  simp [State.data]

theorem State.getElem_data (s : State) {k : Nat} (h : k < s.data.length) : s.data[k] = s.sbByte k := by
  simp [State.data]

theorem State.forall_mem_data {s : State} {p : Byte → Prop} :
    (∀ y ∈ s.data, p y) ↔ ∀ i < s.slen.toNat, p (s.sbByte i) := by
  simp [State.data]

/-- A layout is read from TM only. -/
theorem HTree.laidOut_congr {s u : State} (htm : ∀ i, u.tmWord i = s.tmWord i) (t : HTree) (i : NodeIdx) :
    t.laidOut u i = t.laidOut s i := by
  induction t generalizing i with
  | leaf | synth => simp only [HTree.laidOut, htm]
  | node f l r ihl ihr => simp only [HTree.laidOut, htm, ihl, ihr]

theorem HTree.indices_congr {s u : State} (htm : ∀ i, u.tmWord i = s.tmWord i) (t : HTree) (i : NodeIdx) :
    t.indices u i = t.indices s i := by
  induction t generalizing i with
  | leaf | synth => rfl
  | node f l r ihl ihr => simp only [HTree.indices, htm, ihl, ihr]

theorem HTree.layoutIn_congr {s u : State} (htm : ∀ i, u.tmWord i = s.tmWord i) {t : HTree} (h : t.layoutIn s) :
    t.layoutIn u := by
  rwa [HTree.layoutIn, HTree.laidOut_congr htm, HTree.indices_congr htm]

/-- What ENCODE commits is the stream DECODE finds (R57, R93). -/
theorem streamIs_commitEncode {s : State} {bits : List Bool} (h : encBits s = .ok bits) :
    (commitEncode s bits).streamIs bits :=
  State.streamIs_of_packedBytes (blen_commitEncode_toNat h) fun _ h => bbByte_commitEncode_of_lt (s := s) h

/-- Over consistent tables ENCODE answers the tree's codes of the data in SB. -/
theorem encBits_data {s : State} {t : HTree} (hcons : ConsistentWith s t) (hfit : s.slen.toNat ≤ s.params.symCap)
    (hsyms : ∀ y ∈ s.data, y ∈ t.symbols) (hcap : s.lensFrom 0 s.slen.toNat ≤ bitCap s.params s.ctrlFmt) :
    encBits s = .ok (t.codesOf s.data) := by
  have hcodes : s.codesFrom 0 s.slen.toNat = t.codesOf s.data := by
    simpa using codesFrom_of_consistent hcons (fun k hk => by rw [Nat.zero_add, s.getElem_data hk]) hsyms
  exact encBits_of_consistent hcons s.length_data.symm (by simpa using hfit) (fun k hk => (s.getElem_data hk).symm)
    hsyms (by rwa [← hcodes, State.length_codesFrom])

/-- The commit of a state's own data leaves SLEN and every byte of SB as they were. -/
theorem commitDecode_data {s t : State} (hsb : t.sb = s.sb) :
    (commitDecode t s.data).slen = s.slen ∧ ∀ k, (commitDecode t s.data).sbByte k = s.sbByte k := by
  refine ⟨by simp, fun k => ?_⟩
  rcases Nat.lt_or_ge k s.data.length with hk | hk
  · rw [sbByte_commitDecode_of_lt hk, s.getElem_data]
  · rw [sbByte_commitDecode_of_ge hk, State.sbByte, hsb, State.sbByte]

/-- Settles O45: ENCODE commits the tree's codes of the data, which DECODE follows back to the data. -/
theorem roundTrip : Obligations.RoundTrip := by
  unfold Obligations.RoundTrip
  intro s tree hs hcons hfit hleaves hcap
  have hsyms := State.forall_mem_data.2 hleaves
  have henc := encBits_data hcons hfit hsyms hcap
  have hstream := streamIs_commitEncode henc
  have hlen : (tree.codesOf s.data).length ≤ bitCap s.params s.ctrlFmt := by
    obtain ⟨⟨_, _, hfits⟩, hbits⟩ := encodable_of_encBits henc
    rwa [hbits, State.length_codesFrom]
  have hlayout : tree.layoutIn (commitEncode s (tree.codesOf s.data)) :=
    HTree.layoutIn_congr (s := s) (u := commitEncode s _) (fun _ => rfl) hcons.1
  have hdec : decodedSymbols (commitEncode s (tree.codesOf s.data)) = .ok s.data :=
    decodedSymbols_of_layoutIn hlayout hsyms (by simpa using hfit)
      (hstream.1.trans_le hlen) hstream
  exact ⟨_, _, execEncode_of_encBits hs henc, hs, execDecode_of_decodedSymbols hs hdec, hs, commitDecode_data rfl⟩

/-! ### DECODE by its walk (R104 to R106, R109) -/

/-- Settles O56. -/
theorem decodeIsTheWalk : Obligations.DecodeIsTheWalk := by
  unfold Obligations.DecodeIsTheWalk
  intro s hs hcap
  refine ⟨fun r hwalk => execDecode_of_error hs (decodedSymbols_of_walk_error hcap hwalk),
    fun w hwalk => ⟨fun hcur => ?_, fun hcur => ?_⟩⟩
  · exact execDecode_of_error (r := ⟨.malformedStream, s.blen⟩) hs
      ((decodedSymbols_of_walk_ok hcap hwalk).trans (if_neg hcur))
  · exact exec_decode_commits hs ((decodedSymbols_of_walk_ok hcap hwalk).trans (if_pos hcur))

/-- Settles O35: the walk of no bits ends where it begins, and the commit of no symbols writes SLEN only. -/
theorem decodeEmptyStream : Obligations.DecodeEmptyStream := by
  unfold Obligations.DecodeEmptyStream
  intro s hs hblen
  have hdec : decodedSymbols s = .ok [] := by simp [decodedSymbols, hblen, walkFrom]
  exact execDecode_of_decodedSymbols hs hdec

/-- Settles O36. -/
theorem decodeOverlongStream : Obligations.DecodeOverlongStream := fun _ hs hlong =>
  execDecode_of_error hs (decodedSymbols_of_overlong hlong)

/-- Settles O42: a walk that goes on to the end emits at most one symbol a bit and never beyond SB. -/
theorem decodeCompletes : Obligations.DecodeCompletes := by
  unfold Obligations.DecodeCompletes
  intro s hs
  rcases execDecode_cases s with ⟨hlatched, _⟩ | ⟨_, r, _, he⟩ | ⟨_, out, hout, he⟩
  · exact absurd hs hlatched
  · exact ⟨_, he, .inl ⟨by simp, rfl⟩⟩
  · obtain ⟨hbits, hfit⟩ := length_decodedSymbols hout
    have hslen := slen_commitDecode_toNat hout
    exact ⟨_, he, .inr ⟨hs, rfl, hslen.trans_le hbits, hslen.trans_le hfit,
      fun k hk => sbByte_commitDecode_of_ge (hslen ▸ hk)⟩⟩

/-- Settles O43: the length is tested first; then the walk ends at its first error, or MalformedStream is raised at its
end. Positions are at most BitCap, so ERRPOS holds them without loss (log 10). -/
theorem decodeErrorsInOrder : Obligations.DecodeErrorsInOrder := by
  unfold Obligations.DecodeErrorsInOrder
  intro s t k hs h hk
  have hcap := bitCap_le s.params s.ctrlFmt
  rcases execDecode_cases s with ⟨hlatched, _⟩ | ⟨_, r, hr, he⟩ | ⟨_, out, _, he⟩
  · exact absurd hs hlatched
  · cases he.symm.trans h
    obtain rfl : r.kind = k := Option.some.inj hk
    rcases decodedSymbols_error hr with ⟨hlong, rfl⟩ | ⟨hfit, hwalk | ⟨w, hwalk, -, rfl⟩⟩
    · exact .inl ⟨hlong, rfl, toNat_ofNat_of_lt (by omega)⟩
    · obtain ⟨p, hp, hvalid, hpos, hcase⟩ := walkFrom_error hwalk
      simp only [Nat.zero_add] at hvalid hpos hcase
      have herrpos : (s.raise r.kind r.pos).errpos.toNat = p := by
        rw [State.raise_errpos, hpos]; exact toNat_ofNat_of_lt (by omega)
      rw [herrpos]
      refine .inr ⟨hfit, hp.le, hvalid, ?_⟩
      rcases hcase with ⟨hkind, hinvalid⟩ | ⟨hchar, hkind⟩
      · exact .inl ⟨hp, hkind, hinvalid⟩
      · exact .inr (.inl ⟨hp, hchar, or_rotate.2 hkind⟩)
    · obtain ⟨hvalid, -, -⟩ := walkFrom_ok hwalk (Nat.zero_le _)
      exact .inr ⟨hfit, le_rfl, by simpa using hvalid, .inr (.inr ⟨rfl, rfl⟩)⟩
  · cases he.symm.trans h
    cases hs.symm.trans hk

/-! ### One step of the walker (R103) -/

theorem walkStep_invalid {s : State} {pos : Nat} {w : Walk} (h : s.bitChar s.ctrlFmt pos = .invalid) :
    walkStep s pos w = .error ⟨.invalidBit, BitVec.ofNat 32 pos⟩ := by
  rw [walkStep, h]

theorem takeBit_of_tag_ne {s : State} {pos : Nat} {w : Walk} {b : Bool} (h : nodeTag (s.tmWord w.cur) ≠ .internal) :
    takeBit s pos w b = .error ⟨.badTree, BitVec.ofNat 32 pos⟩ := by
  unfold takeBit
  split
  · contradiction
  · rfl

/-- The node under the cursor must be INTERNAL (R103, R121). -/
theorem walkStep_of_tag_ne {s : State} {pos : Nat} {w : Walk} (hchar : s.bitChar s.ctrlFmt pos ≠ .invalid)
    (htag : nodeTag (s.tmWord w.cur) ≠ .internal) :
    walkStep s pos w = .error ⟨.badTree, BitVec.ofNat 32 pos⟩ := by
  unfold walkStep
  split
  · contradiction
  · exact takeBit_of_tag_ne htag
  · exact takeBit_of_tag_ne htag

theorem enterChild_full {s : State} {pos : Nat} {w : Walk} {nxt : NodeIdx} (h : nodeTag (s.tmWord nxt) = .leaf)
    (hfull : w.out.length = s.params.symCap) :
    enterChild s pos w nxt = .error ⟨.overflow, BitVec.ofNat 32 pos⟩ := by
  simp [enterChild, h, hfull]

/-- SB is full at equality only, whatever the output is (R103). -/
theorem enterChild_room {s : State} {pos : Nat} {w : Walk} {nxt : NodeIdx} (h : nodeTag (s.tmWord nxt) = .leaf)
    (hroom : w.out.length ≠ s.params.symCap) :
    enterChild s pos w nxt = .ok ⟨root, w.out ++ [nodeSym (s.tmWord nxt)]⟩ := by
  simp [enterChild, h, hroom]

theorem enterChild_synth {s : State} {pos : Nat} {w : Walk} {nxt : NodeIdx} (h : nodeTag (s.tmWord nxt) = .synth) :
    enterChild s pos w nxt = .error ⟨.malformedStream, BitVec.ofNat 32 pos⟩ := by
  simp [enterChild, h]

theorem enterChild_empty {s : State} {pos : Nat} {w : Walk} {nxt : NodeIdx} (h : nodeTag (s.tmWord nxt) = .empty) :
    enterChild s pos w nxt = .error ⟨.badTree, BitVec.ofNat 32 pos⟩ := by
  simp [enterChild, h]

theorem walkFrom_succ_of_error {s : State} {n pos : Nat} {w : Walk} {r : Raised} (h : walkStep s pos w = .error r) :
    walkFrom s (n + 1) pos w = .error r := by
  rw [walkFrom, h]

theorem walkFrom_succ_of_ok {s : State} {n pos : Nat} {w w' : Walk} (h : walkStep s pos w = .ok w') :
    walkFrom s (n + 1) pos w = walkFrom s n (pos + 1) w' := by
  rw [walkFrom, h]

/-- Settles O37: the character, the node under the cursor and the child it moves to are tested in this order. -/
theorem walkerStepCases : Obligations.WalkerStepCases := by
  unfold Obligations.WalkerStepCases
  intro s pos cur out
  refine ⟨walkStep_invalid, walkStep_of_tag_ne (w := ⟨cur, out⟩), fun n w => walkFrom_succ_of_ok,
    fun n r => walkFrom_succ_of_error, fun nxt htag hside => ?_⟩
  have hmove : walkStep s pos ⟨cur, out⟩ = enterChild s pos ⟨cur, out⟩ nxt := by
    rcases hside with ⟨hchar, rfl⟩ | ⟨hchar, rfl⟩
    · exact walkStep_ofBool (b := false) hchar htag
    · exact walkStep_ofBool (b := true) hchar htag
  rw [hmove]
  exact ⟨enterChild_internal, enterChild_full (w := ⟨cur, out⟩), enterChild_room (w := ⟨cur, out⟩),
    enterChild_synth, enterChild_empty⟩

/-- Settles O41: the walk ends at its first step. -/
theorem decodeRootNotInternal : Obligations.DecodeRootNotInternal := by
  unfold Obligations.DecodeRootNotInternal
  intro s hs hpos hcap hchar htag
  obtain ⟨n, hn⟩ : ∃ n, s.blen.toNat = n + 1 := ⟨s.blen.toNat - 1, by omega⟩
  have hstep : walkStep s 0 ⟨root, []⟩ = .error ⟨.badTree, 0⟩ := walkStep_of_tag_ne hchar htag
  have hwalk : walkFrom s s.blen.toNat 0 ⟨root, []⟩ = .error ⟨.badTree, 0⟩ := hn ▸ walkFrom_succ_of_error hstep
  exact (decodeIsTheWalk s hs hcap).1 _ hwalk

/-! ### DECODE over the layout of a tree (R100, R104) -/

/-- Settles O38. -/
theorem decodeFollowsTree : Obligations.DecodeFollowsTree := fun _ _ _ hs hlayout hsyms hfit hcap hstream =>
  exec_decode_commits hs (decodedSymbols_of_layoutIn hlayout hsyms hfit hcap hstream)

theorem HTree.self_mem_indices (s : State) (t : HTree) (i : NodeIdx) : i ∈ t.indices s i := by
  cases t <;> simp [HTree.indices]

/-- Only a node gives codes of one bit or more. -/
theorem HTree.isNode_of_codeOf {t : HTree} {y : Byte} {c : List Bool} (h : t.codeOf y = some c) (hc : c ≠ []) :
    t.isNode = true := by
  cases t with
  | leaf z f => exact absurd (HTree.codeOf_leaf_eq_some.1 h).2 hc
  | synth => simp [HTree.codeOf_synth] at h
  | node f l r => rfl

/-- The first bit of a code leads to a laid-out child that gives the rest of it, among the indices below the node. -/
theorem HTree.exists_child {s : State} {t : HTree} {i : NodeIdx} {y : Byte} {b : Bool} {c : List Bool}
    (hlaid : t.laidOut s i = true) (hc : t.codeOf y = some (b :: c)) :
    ∃ child : HTree, ∃ nxt, nxt = (if b then nodeRight (s.tmWord i) else nodeLeft (s.tmWord i)) ∧
      child.laidOut s nxt = true ∧ child.codeOf y = some c ∧ child.indices s nxt ⊆ (t.indices s i).tail := by
  cases t with
  | leaf z f => simpa using (HTree.codeOf_leaf_eq_some.1 hc).2
  | synth => simp [HTree.codeOf_synth] at hc
  | node f l r =>
    obtain ⟨-, hl, hr⟩ := HTree.laidOut_node hlaid
    rcases HTree.codeOf_node_eq_some.1 hc with ⟨d, hd, hbc⟩ | ⟨-, d, hd, hbc⟩ <;> cases hbc
    · exact ⟨l, _, rfl, hl, hd, List.subset_append_left _ _⟩
    · exact ⟨r, _, rfl, hr, hd, List.subset_append_right _ _⟩

/-- A proper beginning of a code is walked without an emission, and after its first bit the cursor stands below the
node the walk began at. -/
theorem walkFrom_cut {s : State} {t : HTree} {y : Byte} {cut missing : List Bool} {pos : Nat} {w : Walk}
    (hlaid : t.laidOut s w.cur = true) (hc : t.codeOf y = some (cut ++ missing)) (hmissing : missing ≠ [])
    (hbits : s.bitsAt pos cut) :
    ∃ nxt, walkFrom s cut.length pos w = .ok ⟨nxt, w.out⟩ ∧
      (cut = [] ∧ nxt = w.cur ∨ nxt ∈ (t.indices s w.cur).tail) := by
  induction cut generalizing t w pos with
  | nil => exact ⟨w.cur, rfl, .inl ⟨rfl, rfl⟩⟩
  | cons b cut ih =>
    obtain ⟨hb, hrest⟩ := State.bitsAt_cons hbits
    obtain ⟨child, nxt, hnxt, hchild, hcode, hbelow⟩ := HTree.exists_child hlaid hc
    have htag := HTree.tag_of_isNode (HTree.isNode_of_codeOf hc (by simp)) hlaid
    have htag' := HTree.tag_of_isNode (HTree.isNode_of_codeOf hcode (by simp [hmissing])) hchild
    have hmove : enterChild s pos w (if b then nodeRight (s.tmWord w.cur) else nodeLeft (s.tmWord w.cur)) =
        .ok ⟨nxt, w.out⟩ := hnxt ▸ enterChild_internal htag'
    obtain ⟨last, hwalk, hlast⟩ := ih (w := ⟨nxt, w.out⟩) hchild hcode hrest
    refine ⟨last, ?_, .inr (hbelow ?_)⟩
    · rw [List.length_cons, walkFrom_succ_of_ofBool hb htag hmove, hwalk]
    · rcases hlast with ⟨-, rfl⟩ | hlast
      · exact child.self_mem_indices s _
      · exact List.mem_of_mem_tail hlast

/-- In a layout the indices below the root are not the root's, because distinct nodes have distinct indices (R87). -/
theorem HTree.root_notMem_tail {s : State} {t : HTree} (h : (t.indices s root).Nodup) :
    root ∉ (t.indices s root).tail := by
  cases t with
  | leaf | synth => simp [HTree.indices]
  | node f l r => exact (List.nodup_cons.1 h).1

/-- Settles O39: the walk emits the symbols, then ends below the root. -/
theorem truncatedStreamIsMalformed : Obligations.TruncatedStreamIsMalformed := by
  unfold Obligations.TruncatedStreamIsMalformed
  intro s tree syms y cut missing hs hlayout hsyms hfit hcode hcut hmissing hcap hstream
  obtain ⟨hnode, hlaid, hnodup, -⟩ := hlayout
  obtain ⟨hcodes, htail⟩ := State.bitsAt_append (State.bitsAt_of_streamIs hstream)
  have hwhole := walkFrom_codesOf hnode hlaid hsyms hcodes (out := []) (by simpa using hfit)
  obtain ⟨last, hpart, hlast⟩ := walkFrom_cut (w := ⟨root, syms⟩) hlaid hcode hmissing htail
  have hwalk : walkFrom s s.blen.toNat 0 ⟨root, []⟩ = .ok ⟨last, syms⟩ := by
    rw [hstream.1, List.length_append, walkFrom_add, hwhole]
    exact hpart
  have hbelow : last ∈ (tree.indices s root).tail := hlast.resolve_left fun h => hcut h.1
  have hcur : last ≠ root := ne_of_mem_of_not_mem hbelow (HTree.root_notMem_tail hnodup)
  exact ((decodeIsTheWalk s hs hcap).2 _ hwalk).1 hcur

/-! ### On what the result depends (R100, R109 e, g, h) -/

/-- A step reads its bit character, TM and the capacity of SB only. -/
theorem walkStep_congr {s u : State} {pos : Nat} (hparams : u.params = s.params) (hfmt : u.ctrlFmt = s.ctrlFmt)
    (htm : ∀ i, u.tmWord i = s.tmWord i) (hchar : u.bitChar s.ctrlFmt pos = s.bitChar s.ctrlFmt pos) (w : Walk) :
    walkStep u pos w = walkStep s pos w := by
  simp only [walkStep, takeBit, enterChild, hparams, hfmt, htm, hchar]

theorem walkFrom_congr {s u : State} {n pos : Nat} (hparams : u.params = s.params) (hfmt : u.ctrlFmt = s.ctrlFmt)
    (htm : ∀ i, u.tmWord i = s.tmWord i)
    (hchar : ∀ p < n, u.bitChar s.ctrlFmt (pos + p) = s.bitChar s.ctrlFmt (pos + p)) (w : Walk) :
    walkFrom u n pos w = walkFrom s n pos w := by
  induction n generalizing pos w with
  | zero => rfl
  | succ n ih =>
    have hshift (p : Nat) : pos + 1 + p = pos + (p + 1) := by omega
    have hstep := walkStep_congr hparams hfmt htm (hchar 0 (by omega)) w
    have hrest (w : Walk) : walkFrom u n (pos + 1) w = walkFrom s n (pos + 1) w :=
      ih (fun p hp => by rw [hshift]; exact hchar _ (by omega)) w
    rw [Nat.add_zero] at hstep
    simp only [walkFrom, hstep, hrest]

/-- Settles O44: both states have the same walk, hence the same error or the same symbols to commit. -/
theorem decodeReadsOnlyItsInputs : Obligations.DecodeReadsOnlyItsInputs := by
  unfold Obligations.DecodeReadsOnlyItsInputs
  intro s u hs hu hparams hfmt hblen hchar htm
  have hsame : decodedSymbols u = decodedSymbols s := by
    simp only [decodedSymbols, hparams, hfmt, hblen,
      walkFrom_congr (pos := 0) hparams hfmt htm (by simpa using hchar)]
  cases hdec : decodedSymbols s with
  | error r =>
    refine ⟨_, _, execDecode_of_error hs hdec, execDecode_of_error hu (hsame.trans hdec), rfl, fun _ => rfl, ?_⟩
    simp
  | ok out =>
    refine ⟨_, _, execDecode_of_decodedSymbols hs hdec, execDecode_of_decodedSymbols hu (hsame.trans hdec),
      hu.trans hs.symm, fun h => absurd hs h, fun _ => ⟨rfl, fun k hk => ?_⟩⟩
    rw [slen_commitDecode_toNat hdec] at hk
    rw [sbByte_commitDecode_of_lt hk, sbByte_commitDecode_of_lt hk]

end Sys2Proof.Machine

/-!
PROOFS. The housekeeping commands (spec/43_housekeeping.md): NOP (R115), CLRERR and what it undoes (R116), CLRCT and
CLRTM (R117, R118), SRST (R119).
-/

namespace Sys2Proof.Machine

/-! ### CLRERR (R116, R126, R131) -/

@[simp] theorem State.clearErr_raise (s : State) (k : ErrKind) (p : Word) : (s.raise k p).clearErr = s.clearErr := rfl

/-- With no error latched there is nothing to clear, because ERRPOS is 0 too (R17). -/
theorem State.clearErr_eq_self {s : State} (hok : s.errOk) (hs : s.statusErr = none) : s.clearErr = s := by
  obtain ⟨-, hpos⟩ := hok
  rw [State.clearErr, ← hpos hs, ← hs]

/-- A command that latches an error where none was latched does nothing but raise it (R128): its commit, and the
commands that clear, leave none latched. -/
theorem exec_latches {i : Instr} {s t : State} (hs : s.statusErr = none) (h : exec i s = .next t)
    (ht : t.statusErr ≠ none) : ∃ r : Raised, t = s.raise r.kind r.pos := by
  rcases exec_cases h with rfl | ⟨_, _, r, _, rfl⟩ | ⟨_, _, bits, _, rfl⟩ | ⟨_, _, r, _, rfl⟩ |
    ⟨_, _, out, _, rfl⟩ | ⟨_, rfl⟩ | ⟨_, _, rfl⟩ | ⟨_, _, rfl⟩ | ⟨_, rfl⟩
  · exact absurd hs ht
  · exact ⟨r, rfl⟩
  · exact absurd hs ht
  · exact ⟨r, rfl⟩
  · exact absurd hs ht
  · exact absurd s.clearErr_statusErr ht
  · exact absurd hs ht
  · exact absurd hs ht
  · exact absurd s.resetBlock_statusErr ht

/-- Settles O28: the failed command only raised its error, which CLRERR takes back. -/
theorem clrerrClearsErrorOnly : Obligations.ClrerrClearsErrorOnly := by
  unfold Obligations.ClrerrClearsErrorOnly
  have hclrerr (s : State) : exec .clrerr s = .next s.clearErr := rfl
  refine ⟨decode_encode .clrerr, hclrerr, fun s hok hs => ?_, fun i s t hok hs h ht => ?_⟩
  · rw [hclrerr, State.clearErr_eq_self hok hs]
  · obtain ⟨r, rfl⟩ := exec_latches hs h ht
    rw [hclrerr, State.clearErr_raise, State.clearErr_eq_self hok hs]

/-! ### NOP (R115) -/

/-- Settles O27: a NOP that is dropped answers the same state as one that is performed. -/
theorem nopChangesNothing : Obligations.NopChangesNothing :=
  ⟨execNop_eq, decode_encode .nop, decode_nonzeroArg (by decide) (by decide)⟩

/-! ### An empty table and an empty tree memory (R23, R24, R54, R55) -/

theorem State.ctWord_of_empty {s : State} (h : s.ct = []) (y : Byte) (k : Nat) : s.ctWord y k = 0 := by
  rw [State.ctWord, h, Memory.read_nil]

/-- Every symbol is absent. -/
theorem State.ctLen_of_empty {s : State} (h : s.ct = []) (y : Byte) : s.ctLen y = 0 := by
  rw [State.ctLen, State.ctWord_of_empty h]; rfl

theorem State.tmWord_of_empty {s : State} (h : s.tm = []) (i : NodeIdx) : s.tmWord i = 0 := by
  rw [State.tmWord, h, Memory.read_nil]

/-- Every node is EMPTY. -/
theorem State.nodeTag_tmWord_of_empty {s : State} (h : s.tm = []) (i : NodeIdx) : nodeTag (s.tmWord i) = .empty := by
  rw [State.tmWord_of_empty h]; rfl

/-! ### CLRCT and CLRTM (R117, R118) -/

/-- Settles O29: performed, CLRCT leaves the empty table. -/
theorem clrctClearsCodeTable : Obligations.ClrctClearsCodeTable :=
  ⟨decode_encode .clrct, fun _ => ⟨fun hs => ⟨_, execClrct_clear hs, rfl, State.ctWord_of_empty rfl,
    State.ctLen_of_empty rfl⟩, execClrct_latched⟩⟩

/-- Settles O30: performed, CLRTM leaves the empty tree memory. -/
theorem clrtmClearsTreeMemory : Obligations.ClrtmClearsTreeMemory :=
  ⟨decode_encode .clrtm, fun _ => ⟨fun hs => ⟨_, execClrtm_clear hs, rfl, State.tmWord_of_empty rfl,
    State.nodeTag_tmWord_of_empty rfl⟩, execClrtm_latched⟩⟩

/-! ### SRST (R119, R145) -/

/-- Settles O21: SRST and a hard reset both make `resetBlock` of the state, which keeps the parameters. -/
theorem srstResetsEverything : Obligations.SrstResetsEverything := by
  unfold Obligations.SrstResetsEverything
  refine ⟨decode_encode .srst, fun s => ⟨s.resetBlock, rfl, serve_hardReset s, ?_⟩⟩
  have hct := State.ctWord_of_empty s.resetBlock_ct
  have htm := State.tmWord_of_empty s.resetBlock_tm
  simp [hct, htm, State.sbByte, State.bbByte, readLoc]

end Sys2Proof.Machine

/-!
PROOFS. Errors (spec/60_exceptions.md): what STATUS and ERRPOS read (R125), what raising leaves alone (R128), the
latched error (R130, R131), invalid characters (R138), and host programs that draw a BusError (R136).
-/

namespace Sys2Proof.Machine

/-! ### What STATUS reads (R16, R125, R133) -/

theorem readLoc_status_of_none {s : State} (h : s.statusErr = none) : readLoc s .status = 0 := by
  simp [readLoc, State.statusWord, State.errField, h]

/-- The register is wider than the code, so that it reads as the code itself. -/
theorem readLoc_status_toNat_of_some {s : State} {k : ErrKind} (h : s.statusErr = some k) :
    (readLoc s .status).toNat = k.code.toNat := by
  simp only [readLoc, State.statusWord, State.errField, h]
  exact BitVec.toNat_setWidth_of_le (by decide)

/-- The kinds the block produces have the codes 2 to 7. -/
theorem ErrKind.code_toNat_mem {k : ErrKind} (h : k ≠ .invalidInput) : k.code.toNat ∈ [2, 3, 4, 5, 6, 7] := by
  cases k with
  | invalidInput => exact absurd rfl h
  | lookupError | invalidBit | malformedStream | badTree | overflow | badCommand => decide

/-- Settles O10, by whether an error is latched. -/
theorem statusReadsProducedCodes : Obligations.StatusReadsProducedCodes := by
  unfold Obligations.StatusReadsProducedCodes
  rintro s ⟨hkind, hpos⟩
  cases hs : s.statusErr with
  | none =>
    rw [readLoc_status_of_none hs]
    exact ⟨by decide, fun _ => hpos hs⟩
  | some k =>
    have hmem := ErrKind.code_toNat_mem (k := k) fun e => hkind (hs.trans (congrArg some e))
    rw [← readLoc_status_toNat_of_some hs] at hmem
    refine ⟨List.mem_cons_of_mem 0 hmem, fun hzero => ?_⟩
    rw [hzero] at hmem
    exact absurd hmem (by decide)

/-! ### The latched error (R126, R128, R130, R131) -/

/-- A word that latches an error where none was latched does nothing but raise it, illegal words too (R128). -/
theorem present_latches {w : Word} {s t : State} (hs : s.statusErr = none) (h : present w s = .next t)
    (ht : t.statusErr ≠ none) : ∃ r : Raised, t = s.raise r.kind r.pos := by
  rcases present_cases w s with ⟨_, _, hn, _⟩ | ⟨_, _, _, hp⟩ | ⟨i, _, hp⟩
  · exact absurd hs hn
  · cases hp.symm.trans h
    exact ⟨⟨.badCommand, w⟩, rfl⟩
  · exact exec_latches hs (hp.symm.trans h) ht

/-- Settles O9: all that raising writes is STATUS.ERR and ERRPOS. -/
theorem raisingCommandChangesOnlyStatus : Obligations.RaisingCommandChangesOnlyStatus := by
  unfold Obligations.RaisingCommandChangesOnlyStatus
  intro w s t hs h ht
  obtain ⟨r, rfl⟩ := present_latches hs h ht
  rfl

/-- A word that meets a latched error is dropped, or is CLRERR or SRST and clears the error. -/
theorem present_drops_or_clears {w : Word} {s t : State} (hs : s.statusErr ≠ none) (h : present w s = .next t) :
    t = s ∨ (t.statusErr = none ∧ t.errpos = 0 ∧ (w = encode .clrerr ∨ w = encode .srst)) := by
  by_cases hclrerr : w = encode .clrerr
  · rw [present_of_eq_encode hclrerr] at h
    cases h
    exact .inr ⟨rfl, rfl, .inl hclrerr⟩
  by_cases hsrst : w = encode .srst
  · rw [present_of_eq_encode hsrst] at h
    cases h
    exact .inr ⟨rfl, rfl, .inr hsrst⟩
  · cases (present_latched hs hclrerr hsrst).symm.trans h
    exact .inl rfl

/-- A write to a location other than CMD does the same whatever STATUS and ERRPOS hold, and leaves them alone. -/
theorem writeLoc_setErr (s : State) {loc : Loc} (v : Word) (hcmd : loc ≠ .cmd) (e : Option ErrKind) (p : Word) :
    ∃ t, writeLoc { s with statusErr := e, errpos := p } loc v = .next t ∧
      writeLoc s loc v = .next { t with statusErr := s.statusErr, errpos := s.errpos } := by
  cases loc with
  | cmd => exact absurd rfl hcmd
  | _ => exact ⟨_, rfl, rfl⟩

/-- STATUS and ERRPOS are read at their own locations only. -/
theorem readLoc_setErr (s : State) {loc : Loc} (hstatus : loc ≠ .status) (herrpos : loc ≠ .errpos)
    (e : Option ErrKind) (p : Word) : readLoc { s with statusErr := e, errpos := p } loc = readLoc s loc := by
  cases loc with
  | status => exact absurd rfl hstatus
  | errpos => exact absurd rfl herrpos
  | _ => rfl

/-- Settles O7. -/
theorem latchedErrorDropsCommands : Obligations.LatchedErrorDropsCommands := by
  unfold Obligations.LatchedErrorDropsCommands
  intro s k hk
  have hs : s.statusErr ≠ none := by simp [hk]
  refine ⟨fun w => present_latched hs, fun w t h => ?_, fun loc v hcmd => writeLoc_setErr s v hcmd none 0,
    fun loc hstatus herrpos => (readLoc_setErr s hstatus herrpos none 0).symm⟩
  rcases present_drops_or_clears hs h with rfl | ⟨hclear, -, -⟩
  · exact .inl ⟨hk, rfl⟩
  · exact .inr hclear

/-- A write to a location other than CMD keeps the error and its position. -/
theorem writeLoc_keeps_error {loc : Loc} {v : Word} {s t : State} (hcmd : loc ≠ .cmd)
    (h : writeLoc s loc v = .next t) : t.statusErr = s.statusErr ∧ t.errpos = s.errpos := by
  obtain ⟨u, -, hu⟩ := writeLoc_setErr s v hcmd s.statusErr s.errpos
  cases hu.symm.trans h
  exact ⟨rfl, rfl⟩

/-- Settles O8, by the cases of a step; of the writes only one to CMD can clear the error. -/
theorem latchedErrorPersists : Obligations.LatchedErrorPersists := by
  unfold Obligations.LatchedErrorPersists
  intro s t k hk h
  rcases step_cases h with ⟨_, rfl⟩ |
    ⟨op, rest, hp, ⟨rfl, rfl⟩ | ⟨off, size, loc, _, _, rfl⟩ | ⟨off, size, v, loc, rfl, ha, hw⟩⟩
  · exact .inl ⟨hk, rfl⟩
  · exact .inr ⟨rfl, rfl, rest, .inl hp⟩
  · exact .inl ⟨hk, rfl⟩
  · by_cases hcmd : loc = .cmd
    · subst hcmd
      obtain ⟨rfl, -, rfl⟩ := accepted_eq_some_iff.1 ha
      rcases present_drops_or_clears (s := { s with pending := rest }) (by simp [hk]) hw with
        rfl | ⟨herr, hpos, hword⟩
      · exact .inl ⟨hk, rfl⟩
      · refine .inr ⟨herr, hpos, rest, .inr ?_⟩
        rcases hword with rfl | rfl
        · exact .inl hp
        · exact .inr hp
    · obtain ⟨herr, hpos⟩ := writeLoc_keeps_error hcmd hw
      exact .inl ⟨herr.trans hk, hpos⟩

/-! ### Invalid characters (R59, R106, R138) -/

/-- A DECODE that latches no error has read only Zero and One. -/
theorem bitChar_ne_invalid_of_exec_decode {s t : State} (hs : s.statusErr = none) (h : exec .decode s = .next t)
    (ht : t.statusErr = none) : ∀ p < s.blen.toNat, s.bitChar s.ctrlFmt p ≠ .invalid := by
  rcases execDecode_cases s with ⟨hlatched, _⟩ | ⟨_, r, _, he⟩ | ⟨_, out, hout, _⟩
  · exact absurd hs hlatched
  · cases he.symm.trans h
    cases ht
  · obtain ⟨-, hwalk⟩ := decodedSymbols_ok hout
    obtain ⟨hvalid, -, -⟩ := walkFrom_ok hwalk (Nat.zero_le _)
    simpa using hvalid

/-- Settles O40: a DECODE that succeeds has met no invalid character, and one that fails has met none before the
position it reports. -/
theorem invalidCharacterNeverSkipped : Obligations.InvalidCharacterNeverSkipped := by
  unfold Obligations.InvalidCharacterNeverSkipped
  intro s p hs hfmt hcap hp h0 h1
  have hcap' : s.blen.toNat ≤ bitCap s.params s.ctrlFmt := by rwa [hfmt]
  have hbyte (q : Nat) : s.bitChar s.ctrlFmt q = .invalid ↔ s.bbByte q ≠ 0x30 ∧ s.bbByte q ≠ 0x31 := by
    rw [hfmt]; exact BitChar.ofByte_eq_invalid_iff _
  have hinvalid := (hbyte p).2 ⟨h0, h1⟩
  obtain ⟨t, ht, ⟨hraised, hframe⟩ | ⟨hnone, -⟩⟩ := decodeCompletes s hs
  · obtain ⟨k, hk⟩ := Option.ne_none_iff_exists'.1 hraised
    rcases decodeErrorsInOrder s t k hs ht hk with ⟨hlong, -⟩ | ⟨-, -, hvalid, hcase⟩
    · exact absurd hcap' (Nat.not_le.2 hlong)
    refine ⟨t, k, ht, hk, Nat.le_of_not_lt fun hlt => hvalid p hlt hinvalid, hframe, ?_⟩
    rintro rfl
    rcases hcase with ⟨-, -, hchar⟩ | ⟨-, -, hkind⟩ | ⟨-, hkind⟩
    · exact (hbyte _).1 hchar
    · simp at hkind
    · cases hkind
  · exact absurd hinvalid (bitChar_ne_invalid_of_exec_decode hs ht hnone p hp)

/-! ### Runs that draw a BusError (R32, R136, R152) -/

/-- The block answers every operation (R32), and its parameters stay (R20, R21). -/
theorem serve_answers (op : HostOp) (s : State) : ∃ t r, serve op s = .next (t, r) ∧ t.params = s.params := by
  cases op with
  | hardReset => exact ⟨_, _, serve_hardReset s, rfl⟩
  | read off size =>
    cases ha : accepted s.params off size with
    | none => exact ⟨_, _, serve_read_refused ha, rfl⟩
    | some loc => exact ⟨_, _, serve_read ha, rfl⟩
  | write off size v =>
    cases ha : accepted s.params off size with
    | none => exact ⟨_, _, serve_write_refused v ha, rfl⟩
    | some loc =>
      obtain ⟨t, ht⟩ := writeLoc_answers s loc v
      exact ⟨t, .ok, by rw [serve_write v ha, ht]; rfl, (writeLoc_keeps_host ht).1⟩

theorem serve_keeps_params {op : HostOp} {s t : State} {r : Reply} (h : serve op s = .next (t, r)) :
    t.params = s.params := by
  obtain ⟨u, r', hu, hparams⟩ := serve_answers op s
  cases hu.symm.trans h
  exact hparams

/-- Every run completes: it goes on after a `BusError`. -/
theorem runOps_answers (ops : List HostOp) (s : State) : ∃ t replies, runOps ops s = .next (t, replies) := by
  induction ops generalizing s with
  | nil => exact ⟨s, [], rfl⟩
  | cons op ops ih =>
    obtain ⟨u, r, hserve, -⟩ := serve_answers op s
    obtain ⟨t, replies, hrun⟩ := ih u
    exact ⟨t, r :: replies, runOps_cons hserve hrun⟩

/-- A write that the block's map does not accept is answered `BusError` wherever it stands in a run. -/
theorem busError_mem_of_refused {ops : List HostOp} {s t : State} {replies : List Reply} {off size : Nat} {v : Word}
    (h : runOps ops s = .next (t, replies)) (hmem : .write off size v ∈ ops)
    (hnone : accepted s.params off size = none) : Reply.busError ∈ replies := by
  induction ops generalizing s replies with
  | nil => cases hmem
  | cons op ops ih =>
    obtain ⟨u, r, rest, hserve, hrun, rfl⟩ := runOps_cons_inv h
    rcases List.mem_cons.1 hmem with rfl | hmem
    · cases (serve_write_refused v hnone).symm.trans hserve
      exact List.mem_cons_self
    · exact List.mem_cons_of_mem r (ih hrun hmem (serve_keeps_params hserve ▸ hnone))

/-- The search finds an operation unless no answer is a `BusError`. -/
theorem firstBusError_eq_none_iff {ops : List HostOp} {replies : List Reply} (h : replies.length = ops.length) :
    firstBusError ops replies = none ↔ Reply.busError ∉ replies := by
  induction replies generalizing ops with
  | nil => cases ops <;> simp [firstBusError]
  | cons r replies ih =>
    cases ops with
    | nil => cases h
    | cons op ops =>
      have htail := ih (Nat.succ.inj h)
      by_cases hr : r = .busError
      · simp [firstBusError, hr]
      · simp [firstBusError, hr, Ne.symm hr, htail]

theorem mem_of_firstBusError {ops : List HostOp} {replies : List Reply} {op : HostOp}
    (h : firstBusError ops replies = some op) : op ∈ ops := by
  induction ops generalizing replies with
  | nil => cases h
  | cons o ops ih =>
    cases replies with
    | nil => cases h
    | cons r replies =>
      rw [firstBusError] at h
      split at h
      · cases h; exact List.mem_cons_self
      · exact List.mem_cons_of_mem o (ih h)

theorem faultedRun_iff {replies : List Reply} : faultedRun replies = true ↔ Reply.busError ∈ replies := by
  simp [faultedRun]

/-- A run with no `BusError` gives its state and the values read. -/
theorem runProgram_of_not_faulted {ops : List HostOp} {s t : State} {replies : List Reply}
    (h : runOps ops s = .next (t, replies)) (hno : Reply.busError ∉ replies) :
    runProgram ops s = .next (t, readValues replies) := by
  rcases runProgram_of_run h with ⟨-, hp⟩ | ⟨op, hop, -⟩
  · exact hp
  · rw [(firstBusError_eq_none_iff (length_replies h)).2 hno] at hop
    cases hop

/-- A run with a `BusError` ends the program in the fault of an operation of it. -/
theorem runProgram_of_busError {ops : List HostOp} {s t : State} {replies : List Reply}
    (h : runOps ops s = .next (t, replies)) (hbus : Reply.busError ∈ replies) :
    ∃ op ∈ ops, runProgram ops s = .fault (.busError op) := by
  rcases runProgram_of_run h with ⟨hnone, -⟩ | ⟨op, hop, hp⟩
  · exact absurd hbus ((firstBusError_eq_none_iff (length_replies h)).1 hnone)
  · exact ⟨op, mem_of_firstBusError hop, hp⟩

/-- A program with a write the block does not accept ends in a fault, from every state (log 4). -/
theorem attempt_of_refused {α : Type} {ops : List HostOp} {s : State} {off size : Nat} {v : Word}
    {k : State → Host.Outcome (State × Except ErrKind α) Fault Refusal} (hmem : .write off size v ∈ ops)
    (hnone : accepted s.params off size = none) : ∃ op, attempt ops s k = .fault (.busError op) := by
  obtain ⟨t, replies, hrun⟩ := runOps_answers (ops ++ [.rd .status]) s
  have hbus := busError_mem_of_refused hrun (List.mem_append_left _ hmem) hnone
  obtain ⟨op, -, hp⟩ := runProgram_of_busError hrun hbus
  exact ⟨op, by simp only [attempt, hp]⟩

/-! ### The first word behind a buffer, and the writes that reach it (R31, R32, R66) -/

theorem accepted_behind_bb (p : Params) : accepted p (Loc.bb (p.bbBytes / 4)).offset 4 = none := by
  have hcap := p.bbBytes_mod
  have hgap : locate p (0x20000 + 4 * (p.bbBytes / 4)) = none := by
    unfold locate
    rw [if_neg (by omega), if_neg (by omega), if_neg (by omega), if_neg (by omega), if_neg (by omega),
      if_neg (by omega), if_neg (by omega)]
  simp only [accepted, Loc.offset, hgap, ite_self]

/-- Below the greatest SYM_CAP there is a gap behind SB (log 14). -/
theorem accepted_behind_sb {p : Params} (h : p.symCap < 65536) :
    accepted p (Loc.sb (p.symCap / 4)).offset 4 = none := by
  have hcap := p.symCap_mod
  have hgap : locate p (0x10000 + 4 * (p.symCap / 4)) = none := by
    unfold locate
    rw [if_neg (by omega), if_neg (by omega), if_neg (by omega), if_neg (by omega), if_neg (by omega),
      if_pos (by omega), if_neg (by omega)]
  simp only [accepted, Loc.offset, hgap, ite_self]

/-- A stretch of writes reaches each location between its first and its last. -/
theorem exists_mem_writeWords (loc : Nat → Loc) {i j : Nat} {ws : List Word} (hij : i ≤ j) (hj : j < i + ws.length) :
    ∃ v, HostOp.wr (loc j) v ∈ writeWords loc i ws := by
  induction ws generalizing i with
  | nil => exact absurd hj (Nat.not_lt.2 hij)
  | cons w ws ih =>
    rcases Nat.eq_or_lt_of_le hij with rfl | hlt
    · exact ⟨w, List.mem_cons_self⟩
    · rw [List.length_cons] at hj
      obtain ⟨v, hv⟩ := ih (i := i + 1) hlt (by omega)
      exact ⟨v, List.mem_cons_of_mem _ hv⟩

/-- Bytes beyond a capacity of `n` words take a write of the word behind it. -/
theorem exists_mem_writeBuffer (loc : Nat → Loc) {n : Nat} {bytes : List Byte} (h : 4 * n < bytes.length) :
    ∃ v, HostOp.wr (loc n) v ∈ writeWords loc 0 (bufferWords bytes) :=
  exists_mem_writeWords loc (Nat.zero_le n) (by rw [length_bufferWords]; omega)

/-! ### compress and decompress of what does not fit (R84, R85; log 4) -/

/-- decompress writes every word of the stream, the one behind BB too. -/
theorem decompress_overlong {r : EncodedResult} {s : State} (h : s.params.bbBytes < r.bytes.length) :
    ∃ op, decompress r s = .fault (.busError op) := by
  obtain ⟨v, hv⟩ := exists_mem_writeBuffer .bb (n := s.params.bbBytes / 4) (bytes := r.bytes) (by omega)
  have hmem : HostOp.wr (.bb (s.params.bbBytes / 4)) v ∈ decompressOps r := by simp [decompressOps, loadStream, hv]
  exact attempt_of_refused hmem (accepted_behind_bb _)

/-- Data of at least one symbol has a tree (R73). -/
theorem exists_buildTree {data : List Byte} (h : data ≠ []) : ∃ t, buildTree (frequencyCount data) = .ok t := by
  obtain ⟨y, hy⟩ := List.exists_mem_of_ne_nil data h
  have hcount : frequencyCount data y ≠ 0 := (List.count_pos_iff.2 hy).ne'
  have hpos := List.length_pos_of_mem (mem_presentSymbols.2 hcount)
  obtain ⟨e, he, -⟩ := buildTree_spec rfl hpos.ne'
  exact ⟨e.tree, he⟩

/-- compress writes every word of the data, the one behind SB too. -/
theorem compress_overlong {data : List Byte} {fmt : Format} {s : State} (h : s.params.symCap < data.length)
    (hgap : s.params.symCap < 65536) : ∃ op, compress data fmt s = .fault (.busError op) := by
  have hne : data ≠ [] := List.ne_nil_of_length_pos (by omega)
  obtain ⟨t, ht⟩ := exists_buildTree hne
  obtain ⟨v, hv⟩ := exists_mem_writeBuffer .sb (n := s.params.symCap / 4) (bytes := data) (by omega)
  have hmem : HostOp.wr (.sb (s.params.symCap / 4)) v ∈ compressOps data fmt t (codeWalk t []) := by
    simp [compressOps, loadData, hv]
  rw [compress_of_buildTree hne ht]
  exact attempt_of_refused hmem (accepted_behind_sb hgap)

/-- Settles O57: the fault of a run is that of a program, and what does not fit takes a write that is not accepted. -/
theorem hostProgramsFaultOnBusError : Obligations.HostProgramsFaultOnBusError := by
  unfold Obligations.HostProgramsFaultOnBusError
  refine ⟨fun ops s t replies h => ⟨fun hno => ?_, fun hbus => ?_⟩, fun _ _ => decompress_overlong,
    fun _ _ _ => compress_overlong⟩
  · exact runProgram_of_not_faulted h fun hmem => by simp [faultedRun_iff.2 hmem] at hno
  · exact runProgram_of_busError h (faultedRun_iff.1 hbus)

end Sys2Proof.Machine

/-!
PROOFS. Reset and progress (spec/70_reset_and_hazards.md): every operation and every command completes (R151), and
what the coding commands make of the reset state (R146).
-/

namespace Sys2Proof.Machine

/-! ### Every operation completes (R32, R136, R151) -/

theorem step_of_pending_nil {s : State} (h : s.pending = []) : step s = .next s := by
  simp only [step, hostStep, h]

theorem step_of_pending_cons {s : State} {op : HostOp} {rest : List HostOp} (h : s.pending = op :: rest) :
    step s = receive op (serve op { s with pending := rest }) := by
  simp only [step, hostStep, h]

/-- An access that is answered `BusError` has no effect (R32). -/
theorem serve_busError {op : HostOp} {s t : State} (h : serve op s = .next (t, .busError)) : t = s := by
  cases op with
  | hardReset => cases h
  | read off size =>
    cases ha : accepted s.params off size with
    | none => cases (serve_read_refused ha).symm.trans h; rfl
    | some loc => cases (serve_read ha).symm.trans h
  | write off size v =>
    cases ha : accepted s.params off size with
    | none => cases (serve_write_refused v ha).symm.trans h; rfl
    | some loc =>
      obtain ⟨u, hu⟩ := writeLoc_answers s loc v
      rw [serve_write v ha, hu] at h
      cases h

/-- Settles O18: the block answers every operation, and only the answer `BusError` ends the step in a fault. -/
theorem everyOperationCompletes : Obligations.EveryOperationCompletes := by
  unfold Obligations.EveryOperationCompletes
  refine ⟨fun s => ?_, exec_answers⟩
  cases hp : s.pending with
  | nil => exact .inl ⟨s, step_of_pending_nil hp⟩
  | cons op rest =>
    obtain ⟨t, r, hserve, -⟩ := serve_answers op { s with pending := rest }
    have hstep := step_of_pending_cons hp
    rw [hserve] at hstep
    cases r with
    | ok => exact .inl ⟨t, hstep⟩
    | data w => exact .inl ⟨{ t with reads := t.reads ++ [w] }, hstep⟩
    | busError =>
      obtain rfl := serve_busError hserve
      exact .inr ⟨op, rest, rfl, hstep, hserve⟩

/-! ### The reset state as the host reads it (R29, R33) -/

/-- A buffer with nothing listed reads 0 in every word (log 5). -/
theorem bufferWord_nil (j : Nat) : bufferWord [] j = 0 := by
  simp [bufferWord, wordOfBytes]

/-- All locations but the two constants read 0. -/
theorem readLoc_resetFor (p : Params) {loc : Loc} (hsym : loc ≠ .symcap) (hbb : loc ≠ .bbcap) :
    readLoc (State.resetFor p) loc = 0 := by
  cases loc with
  | symcap => exact absurd rfl hsym
  | bbcap => exact absurd rfl hbb
  | ct y k => simp [readLoc, State.ctWord_of_empty (State.resetFor_ct p)]
  | tm i => exact State.tmWord_of_empty rfl i
  | sb j | bb j => exact bufferWord_nil j
  | cmd | ctrl | status | errpos | slen | blen => rfl

/-! ### ENCODE of nothing, and ENCODE with no table (R92, R94, R95) -/

theorem packedBytes_nil (f : Format) : packedBytes [] f = [] := by
  cases f <;> rfl

/-- The commit of no bits writes BLEN only. -/
theorem commitEncode_nil (s : State) : commitEncode s [] = { s with blen := 0 } := by
  rw [commitEncode, packedBytes_nil]; rfl

theorem exec_encode_of_slen_zero {s : State} (hs : s.statusErr = none) (h : s.slen = 0) :
    exec .encode s = .next { s with blen := 0 } := by
  have hbits : encBits s = .ok [] := by simp [encBits, h, encodeFrom]
  exact commitEncode_nil s ▸ execEncode_of_encBits hs hbits

/-- With no table the first symbol is absent. -/
theorem exec_encode_of_empty_ct {s : State} (hs : s.statusErr = none) (hct : s.ct = []) (hpos : 1 ≤ s.slen.toNat)
    (hfit : s.slen.toNat ≤ s.params.symCap) :
    exec .encode s = .next { s with statusErr := some .lookupError, errpos := 0 } := by
  obtain ⟨-, herrors, -⟩ := encodeErrorsInOrder s hs
  obtain ⟨hlookup, -⟩ := herrors 0 hpos hfit (fun j hj => absurd hj (Nat.not_lt_zero j)) (Nat.zero_le _)
  exact hlookup (State.ctLen_of_empty hct _)

/-! ### DECODE with no tree (R103, R106) -/

/-- With no tree the root is EMPTY, and no bit of the packed format is invalid. -/
theorem exec_decode_of_empty_tm {s : State} (hs : s.statusErr = none) (htm : s.tm = []) (hfmt : s.ctrlFmt = .packed)
    (hpos : 1 ≤ s.blen.toNat) (hfit : s.blen.toNat ≤ 8 * s.params.bbBytes) :
    exec .decode s = .next { s with statusErr := some .badTree, errpos := 0 } := by
  have hcap : s.blen.toNat ≤ bitCap s.params s.ctrlFmt := by rw [hfmt]; exact hfit
  have hchar : s.bitChar s.ctrlFmt 0 ≠ .invalid := by rw [hfmt]; exact BitChar.ofBool_ne_invalid _
  have htag : nodeTag (s.tmWord 0) ≠ .internal := by rw [State.nodeTag_tmWord_of_empty htm]; decide
  exact decodeRootNotInternal s hs hpos hcap hchar htag

/-- Settles O22: both tables are empty and both lengths 0 in the reset state. -/
theorem resetStateCommands : Obligations.ResetStateCommands := by
  unfold Obligations.ResetStateCommands
  rintro p s rfl
  exact ⟨fun _ _ => readLoc_resetFor p, step_of_pending_nil rfl, exec_encode_of_slen_zero rfl rfl,
    decodeEmptyStream _ rfl rfl, fun n => exec_encode_of_empty_ct (s := { State.resetFor p with slen := n }) rfl rfl,
    fun n => exec_decode_of_empty_tm (s := { State.resetFor p with blen := n }) rfl rfl rfl⟩

end Sys2Proof.Machine
